-- ==== Sys2Proof/Word.lean ====
section
/-! DEFINITION. The word types of the FX-MAC block: bit patterns only. Every numeric meaning of a
pattern (R10, R13) is in `Machine/FixedPoint.lean`. -/

namespace Sys2Proof

/-- One register of the block, and one word of the host bus: `XLEN` = 32 bits (R9, R21 to R23). -/
abbrev Word := BitVec 32

/-- One byte of a bus word, for a host that splits bus words into bytes (R47). -/
abbrev Byte := BitVec 8

/-- A byte offset in the 4096-byte register window, 0x000 to 0xFFF (R40). -/
abbrev Offset := BitVec 12

/-- A register number: the 3-bit unsigned field of a command word (R63). -/
abbrev RegNo := BitVec 3

/-- The immediate `idx` of `MGETIDX`: a 4-bit unsigned storage index (R63). -/
abbrev ElemIdx := BitVec 4

/-- A vector register: lanes 0..3, named x, y, z, w (R22). -/
abbrev Vec := Vector Word 4

/-- A matrix register: elements 0..15 in column-major order (R23, R12). -/
abbrev Mat := Vector Word 16

end Sys2Proof
end

