-- ==== Sys2Proof/Syntax.lean ====
section
/-! DEFINITION. The syntax of command set FXMAC-1: one constructor of `Instr` per row of
spec/opcode_table.json, the formats and operands of R62 to R64, and the assembler's and the host
program's syntax of R68 to R70. No bit pattern stands here: encodings are in `Decode.lean`. -/

namespace Sys2Proof

/-- The mnemonics of the opcode map (R64). -/
inductive Mnemonic where
  | nop | mident | mcopy | mcmp | mmul | mvmul4 | mvmul3 | mscale | mtrans | mgetidx | vdot4
  | smul | smac
  deriving DecidableEq, Repr

/-- Every row of the opcode map, in its order (R64). -/
def Mnemonic.all : List Mnemonic :=
  [.nop, .mident, .mcopy, .mcmp, .mmul, .mvmul4, .mvmul3, .mscale, .mtrans, .mgetidx, .vdot4,
    .smul, .smac]

/-- The formats of R62: which of the fields d, a, b and idx a command uses. -/
inductive Format where
  | n | d | da | ab | dab | dabi
  deriving DecidableEq, Repr

/-- The three register files a field may name (R63). -/
inductive RegFile where
  | scalar | vector | matrix
  deriving DecidableEq, Repr

/-- What the opcode map says an operand is: a register of one file, or the index immediate. -/
inductive OperandKind where
  | reg (file : RegFile)
  | index
  deriving DecidableEq, Repr

/-- The format column of R64. -/
def Mnemonic.format : Mnemonic → Format
  | .nop => .n
  | .mident => .d
  | .mcmp => .ab
  | .mcopy | .mmul | .mvmul4 | .mvmul3 | .mscale | .mtrans => .da
  | .vdot4 | .smul | .smac => .dab
  | .mgetidx => .dabi

/-- The d, a, b and idx columns of R64: the used operands of a command, in the order d, a, b, idx
(R68), each with the file the opcode fixes for it (R63). -/
def Mnemonic.operands : Mnemonic → List OperandKind
  | .nop => []
  | .mident => [.reg .matrix]
  | .mcopy | .mcmp | .mmul => [.reg .matrix, .reg .matrix]
  | .mvmul4 | .mvmul3 => [.reg .vector, .reg .matrix]
  | .mscale | .mtrans => [.reg .matrix, .reg .vector]
  | .mgetidx => [.reg .scalar, .reg .matrix, .reg .matrix, .index]
  | .vdot4 => [.reg .scalar, .reg .vector, .reg .vector]
  | .smul | .smac => [.reg .scalar, .reg .scalar, .reg .scalar]

/-- A command of FXMAC-1 (R64). A register operand is its 3-bit number; the opcode fixes the file
(R63). -/
inductive Instr where
  /-- `NOP` (R80). -/
  | nop
  /-- `MIDENT Md` (R83). -/
  | mident (d : RegNo)
  /-- `MCOPY Md, Ma` (R84). -/
  | mcopy (d a : RegNo)
  /-- `MCMP Ma, Mb` (R85). -/
  | mcmp (a b : RegNo)
  /-- `MMUL Md, Ma` (R90). -/
  | mmul (d a : RegNo)
  /-- `MVMUL4 Vd, Ma` (R91). -/
  | mvmul4 (d a : RegNo)
  /-- `MVMUL3 Vd, Ma` (R92). -/
  | mvmul3 (d a : RegNo)
  /-- `MSCALE Md, Va` (R95). -/
  | mscale (d a : RegNo)
  /-- `MTRANS Md, Va` (R96). -/
  | mtrans (d a : RegNo)
  /-- `MGETIDX Sd, Ma, Mb, #idx` (R100). -/
  | mgetidx (d a b : RegNo) (idx : ElemIdx)
  /-- `VDOT4 Sd, Va, Vb` (R101). -/
  | vdot4 (d a b : RegNo)
  /-- `SMUL Sd, Sa, Sb` (R81). -/
  | smul (d a b : RegNo)
  /-- `SMAC Sd, Sa, Sb` (R82). -/
  | smac (d a b : RegNo)
  deriving DecidableEq, Repr

/-- The row of the opcode map a command belongs to (R64). -/
def Instr.mnemonic : Instr → Mnemonic
  | .nop => .nop
  | .mident _ => .mident
  | .mcopy _ _ => .mcopy
  | .mcmp _ _ => .mcmp
  | .mmul _ _ => .mmul
  | .mvmul4 _ _ => .mvmul4
  | .mvmul3 _ _ => .mvmul3
  | .mscale _ _ => .mscale
  | .mtrans _ _ => .mtrans
  | .mgetidx _ _ _ _ => .mgetidx
  | .vdot4 _ _ _ => .vdot4
  | .smul _ _ _ => .smul
  | .smac _ _ _ => .smac

/-! ## Assembler syntax (R68) -/

/-- An operand as an assembler line writes it: a file letter with a number, or `#` with a number.
The number is not yet checked against the register file or the index range. -/
inductive AsmOperand where
  | reg (file : RegFile) (n : Nat)
  | imm (k : Nat)
  deriving DecidableEq, Repr

/-- A command line: its mnemonic, then its operands (R68). -/
structure AsmCommand where
  mnemonic : Mnemonic
  operands : List AsmOperand
  deriving DecidableEq, Repr

/-- The operands of a command as an assembler line writes them: d, a, b, idx (R68). -/
def Instr.asm : Instr → AsmCommand
  | .nop => ⟨.nop, []⟩
  | .mident d => ⟨.mident, [.reg .matrix d.toNat]⟩
  | .mcopy d a => ⟨.mcopy, [.reg .matrix d.toNat, .reg .matrix a.toNat]⟩
  | .mcmp a b => ⟨.mcmp, [.reg .matrix a.toNat, .reg .matrix b.toNat]⟩
  | .mmul d a => ⟨.mmul, [.reg .matrix d.toNat, .reg .matrix a.toNat]⟩
  | .mvmul4 d a => ⟨.mvmul4, [.reg .vector d.toNat, .reg .matrix a.toNat]⟩
  | .mvmul3 d a => ⟨.mvmul3, [.reg .vector d.toNat, .reg .matrix a.toNat]⟩
  | .mscale d a => ⟨.mscale, [.reg .matrix d.toNat, .reg .vector a.toNat]⟩
  | .mtrans d a => ⟨.mtrans, [.reg .matrix d.toNat, .reg .vector a.toNat]⟩
  | .mgetidx d a b idx =>
    ⟨.mgetidx, [.reg .scalar d.toNat, .reg .matrix a.toNat, .reg .matrix b.toNat, .imm idx.toNat]⟩
  | .vdot4 d a b =>
    ⟨.vdot4, [.reg .scalar d.toNat, .reg .vector a.toNat, .reg .vector b.toNat]⟩
  | .smul d a b =>
    ⟨.smul, [.reg .scalar d.toNat, .reg .scalar a.toNat, .reg .scalar b.toNat]⟩
  | .smac d a b =>
    ⟨.smac, [.reg .scalar d.toNat, .reg .scalar a.toNat, .reg .scalar b.toNat]⟩

/-! ## Host-program syntax (R69, R70) -/

/-- A line of a host program that is not a pseudo-instruction (R69). -/
inductive PlainLine where
  /-- `WR off, value`. -/
  | wr (off : Offset) (value : Word)
  /-- `RD off`, with the value after `->` where the line states one. -/
  | rd (off : Offset) (stated : Option Word)
  /-- A command line (R68). -/
  | command (i : Instr)
  deriving DecidableEq, Repr

/-- The pseudo-instructions of R70. -/
inductive Pseudo where
  | lds (n : RegNo) (v : Word)
  | ldv (n : RegNo) (v : Vec)
  | ldm (n : RegNo) (e : Mat)
  | sts (n : RegNo)
  | stv (n : RegNo)
  | stm (n : RegNo)
  | clrerr
  | mmov (d a : RegNo)
  deriving DecidableEq, Repr

/-- A line of a host program (R69). -/
inductive HostLine where
  | plain (l : PlainLine)
  | pseudo (p : Pseudo)
  deriving DecidableEq, Repr

/-- A host program is a list of lines (R69). -/
abbrev HostProgram := List HostLine

end Sys2Proof
end

