-- ==== Sys2Proof/WellFormed.lean ====
section
/-! DEFINITION. Well-formedness of a command as an assembler line writes it (R68, R63): what a line
must satisfy to stand for a command of `Instr`. A term of `Instr` is well formed by its types. -/

namespace Sys2Proof

/-- Why a command line is not a command (R63, R64, R68). -/
inductive AsmError where
  /-- The first word is no mnemonic of the opcode map (R64). -/
  | unknownMnemonic
  /-- An operand is neither a file letter with a number nor `#` with a number (R68). -/
  | badOperand
  /-- More or fewer operands than the format uses (R62, R68). -/
  | operandCount
  /-- A file letter other than the one R64 gives the field, or a register where an index is due. -/
  | operandKind
  /-- A register number above 7 (R63). -/
  | registerNumber
  /-- An index above 15 (R63). -/
  | indexRange
  deriving DecidableEq, Repr

/-- One operand against what the opcode map gives its field. -/
def AsmOperand.check : OperandKind → AsmOperand → Option AsmError
  | .reg f, .reg g n =>
    if f ≠ g then some .operandKind else if 8 ≤ n then some .registerNumber else none
  | .index, .imm k => if 16 ≤ k then some .indexRange else none
  | .reg _, .imm _ => some .operandKind
  | .index, .reg _ _ => some .operandKind

/-- The operands of a line against the operands of its row, in order; `none` is "well formed". -/
def checkOperands : List OperandKind → List AsmOperand → Option AsmError
  | [], [] => none
  | k :: ks, o :: os => (o.check k).or (checkOperands ks os)
  | _, _ => some .operandCount

/-- The first thing wrong with a command line, `none` if nothing is (R68). -/
def AsmCommand.check (c : AsmCommand) : Option AsmError :=
  checkOperands c.mnemonic.operands c.operands

/-- A command line that stands for a command (R68). -/
def AsmCommand.wellFormed (c : AsmCommand) : Bool := c.check.isNone

/-- A command is well formed if the line that writes it is. Every `Instr` is
(`Laws.instr_wellFormed`): its fields have the widths of R61. -/
def Instr.wellFormed (i : Instr) : Bool := i.asm.wellFormed

end Sys2Proof
end

