-- ==== Sys2Proof/Decode.lean ====
section
/-! DEFINITION. The 32-bit command word of FXMAC-1 (R60 to R67): its fields, the decoder, total and
rejecting by name, the encoder of R61, and the match and mask table of R65. -/

namespace Sys2Proof

/-- The fields of a command word (R61). A field left out of a literal is 0 (R62). -/
structure CommandFields where
  op : BitVec 8
  z0 : BitVec 4 := 0
  idx : ElemIdx := 0
  z1 : BitVec 4 := 0
  z2 : BitVec 1 := 0
  d : RegNo := 0
  z3 : BitVec 1 := 0
  a : RegNo := 0
  z4 : BitVec 1 := 0
  b : RegNo := 0
  deriving DecidableEq, Repr

/-- The field layout of R61, read off a word. -/
def CommandFields.ofWord (w : Word) : CommandFields where
  op := w.extractLsb' 24 8
  z0 := w.extractLsb' 20 4
  idx := w.extractLsb' 16 4
  z1 := w.extractLsb' 12 4
  z2 := w.extractLsb' 11 1
  d := w.extractLsb' 8 3
  z3 := w.extractLsb' 7 1
  a := w.extractLsb' 4 3
  z4 := w.extractLsb' 3 1
  b := w.extractLsb' 0 3

/-- The encoding function of R61: the concatenation of the fields, `op` in the high bits. -/
def CommandFields.toWord (f : CommandFields) : Word :=
  f.op ++ f.z0 ++ f.idx ++ f.z1 ++ f.z2 ++ f.d ++ f.z3 ++ f.a ++ f.z4 ++ f.b

/-- The op column of the opcode map (R64). -/
def Mnemonic.op : Mnemonic → BitVec 8
  | .nop => 0x00
  | .mident => 0x01
  | .mcopy => 0x02
  | .mcmp => 0x03
  | .mmul => 0x10
  | .mvmul4 => 0x11
  | .mvmul3 => 0x12
  | .mscale => 0x13
  | .mtrans => 0x14
  | .mgetidx => 0x15
  | .vdot4 => 0x16
  | .smul => 0x20
  | .smac => 0x21

/-- The row of the opcode map an `op` value names; `none` for a reserved opcode (R64, R66). -/
def Mnemonic.ofOp (op : BitVec 8) : Option Mnemonic :=
  Mnemonic.all.find? fun m => m.op == op

/-- Why a word is illegal: the three cases of R66. -/
inductive Illegal where
  /-- Its `op` is not in R64. -/
  | reservedOpcode
  /-- Any of z0 to z4 is nonzero. -/
  | reservedBits
  /-- A field its format does not use is nonzero. -/
  | unusedField
  deriving DecidableEq, Repr

/-- z0 to z4 are all 0 (R61, R66). -/
def CommandFields.reservedZero (f : CommandFields) : Bool :=
  f.z0 == 0 && f.z1 == 0 && f.z2 == 0 && f.z3 == 0 && f.z4 == 0

/-- The fields a format does not use are all 0 (R62, R66). -/
def CommandFields.unusedZero (f : CommandFields) : Format → Bool
  | .n => f.d == 0 && f.a == 0 && f.b == 0 && f.idx == 0
  | .d => f.a == 0 && f.b == 0 && f.idx == 0
  | .da => f.b == 0 && f.idx == 0
  | .ab => f.d == 0 && f.idx == 0
  | .dab => f.idx == 0
  | .dabi => true

/-- The command a row of the opcode map makes of the fields it uses (R63, R64). -/
def Instr.ofFields (m : Mnemonic) (f : CommandFields) : Instr :=
  match m with
  | .nop => .nop
  | .mident => .mident f.d
  | .mcopy => .mcopy f.d f.a
  | .mcmp => .mcmp f.a f.b
  | .mmul => .mmul f.d f.a
  | .mvmul4 => .mvmul4 f.d f.a
  | .mvmul3 => .mvmul3 f.d f.a
  | .mscale => .mscale f.d f.a
  | .mtrans => .mtrans f.d f.a
  | .mgetidx => .mgetidx f.d f.a f.b f.idx
  | .vdot4 => .vdot4 f.d f.a f.b
  | .smul => .smul f.d f.a f.b
  | .smac => .smac f.d f.a f.b

/-- The command a set of fields stands for, or why it stands for none (R66). -/
def CommandFields.decode (f : CommandFields) : Except Illegal Instr :=
  match Mnemonic.ofOp f.op with
  | none => .error .reservedOpcode
  | some m =>
    if f.reservedZero then
      if f.unusedZero m.format then .ok (Instr.ofFields m f) else .error .unusedField
    else .error .reservedBits

/-- The decoder: the command a word stands for, or why it is illegal (R60, R66). -/
def decode (w : Word) : Except Illegal Instr := (CommandFields.ofWord w).decode

/-- The fields of a command; those its format does not use are 0 (R62). -/
def Instr.fields : Instr → CommandFields
  | .nop => { op := Mnemonic.nop.op }
  | .mident d => { op := Mnemonic.mident.op, d := d }
  | .mcopy d a => { op := Mnemonic.mcopy.op, d := d, a := a }
  | .mcmp a b => { op := Mnemonic.mcmp.op, a := a, b := b }
  | .mmul d a => { op := Mnemonic.mmul.op, d := d, a := a }
  | .mvmul4 d a => { op := Mnemonic.mvmul4.op, d := d, a := a }
  | .mvmul3 d a => { op := Mnemonic.mvmul3.op, d := d, a := a }
  | .mscale d a => { op := Mnemonic.mscale.op, d := d, a := a }
  | .mtrans d a => { op := Mnemonic.mtrans.op, d := d, a := a }
  | .mgetidx d a b idx => { op := Mnemonic.mgetidx.op, idx := idx, d := d, a := a, b := b }
  | .vdot4 d a b => { op := Mnemonic.vdot4.op, d := d, a := a, b := b }
  | .smul d a b => { op := Mnemonic.smul.op, d := d, a := a, b := b }
  | .smac d a b => { op := Mnemonic.smac.op, d := d, a := a, b := b }

/-- The encoder: the command word of a command (R61). -/
def encode (i : Instr) : Word := i.fields.toWord

/-! ## The match and mask table (R65) -/

/-- The match column of R65. -/
def Mnemonic.matchWord : Mnemonic → Word
  | .nop => 0x00000000
  | .mident => 0x01000000
  | .mcopy => 0x02000000
  | .mcmp => 0x03000000
  | .mmul => 0x10000000
  | .mvmul4 => 0x11000000
  | .mvmul3 => 0x12000000
  | .mscale => 0x13000000
  | .mtrans => 0x14000000
  | .mgetidx => 0x15000000
  | .vdot4 => 0x16000000
  | .smul => 0x20000000
  | .smac => 0x21000000

/-- The mask column of R65. -/
def Mnemonic.maskWord : Mnemonic → Word
  | .nop => 0xFFFFFFFF
  | .mident => 0xFFFFF8FF
  | .mcopy | .mmul | .mvmul4 | .mvmul3 | .mscale | .mtrans => 0xFFFFF88F
  | .mcmp => 0xFFFFFF88
  | .mgetidx => 0xFFF0F888
  | .vdot4 | .smul | .smac => 0xFFFFF888

/-- A word is the command of a row exactly when `(word & mask) = match` (R65). -/
def Mnemonic.matchesWord (m : Mnemonic) (w : Word) : Bool := w &&& m.maskWord == m.matchWord

/-- `legal(w)` as R66 writes it. The decoder does not consult it; that the two agree is a statement
of the certificate. -/
def legal (w : Word) : Bool := Mnemonic.all.any fun m => m.matchesWord w

/-- The host's view of the decoder: the low `nbits` bits of `w` as one command word. A command is
one 32-bit word (R60), so nothing above bit 31 belongs to it. -/
def decodeTableWord (nbits w : Nat) : Option Instr :=
  (decode (BitVec.ofNat 32 (w % 2 ^ nbits))).toOption

end Sys2Proof
end

