-- ==== Sys2Proof/Config.lean ====
section
/-! DEFINITION. The implementation parameters of R9. Those whose value the spec fixes are numbers;
`SATURATE`, for which both values are legal, is a field; `BASE`, which the spec leaves OPEN, is a
constant without a value. -/

namespace Sys2Proof

/-- The parameter of R9 for which both values are legal hardware, fixed for the life of the block.
It rides in `State.config`, because a step is a function of the state alone; nothing ever writes it
(notes/assumptions/1.md). -/
structure Config where
  /-- `SATURATE` (R9, R16): true, shiftDown clamps; false ("the historical default"), it wraps. -/
  saturate : Bool := false
  deriving DecidableEq, Repr

namespace Config

/-- The configuration R9 calls the default: `SATURATE = false`. -/
def standard : Config := { saturate := false }

/-- `XLEN`, the element width (R9). -/
abbrev xlen : Nat := 32

/-- `FRAC`, the fraction bits of an fx32 value (R9, R13). -/
abbrev frac : Nat := 12

/-- `ACCLEN`, the accumulator width (R9, R17). -/
abbrev accLen : Nat := 64

/-- `NM`, the number of matrix registers (R9, R23). -/
abbrev nm : Nat := 8

/-- `NV`, the number of vector registers (R9, R22). -/
abbrev nv : Nat := 8

/-- `NS`, the number of scalar registers (R9, R21). -/
abbrev ns : Nat := 8

/-- The window size in bytes (R9, R40). -/
abbrev windowBytes : Nat := 4096

/-- Which 4 KiB page of the host's address space the window is. `BASE` is OPEN (R9, R40,
92_eei_decisions.md D3), so this is a constant without a body: nothing can be proved of its value
(notes/assumptions/2.md). -/
opaque basePage : Nat

/-- `BASE` (R9): "any 4 KiB-aligned host address" (92_eei_decisions.md D3). -/
def base : Nat := windowBytes * basePage

end Config

end Sys2Proof
end

