-- ==== Sys2Proof/Machine/FixedPoint.lean ====
section
/-! DEFINITION. The numeric primitives of R10 and R13 to R18. Operands become integers, sums and
products are exact, and a result is narrowed once, at the end. -/

namespace Sys2Proof.Machine

/-- `s32(v)`: a 32-bit pattern read as a signed integer (R10). -/
def s32 (v : Word) : Int := v.toInt

/-- `u32(v)`: the 32-bit pattern of an integer taken modulo 2^32 (R10). -/
def u32 (i : Int) : Word := BitVec.ofInt 32 i

/-- `wrap64(v)`: the integer in [-2^63, 2^63-1] congruent to `v` modulo 2^64 (R10). -/
def wrap64 (i : Int) : Int := Int.bmod i (2 ^ Config.accLen)

/-- The fx32 value one, `1<<12` (R13). -/
def one : Word := 0x00001000

/-- `mul64(a, b)`: the exact product, 24 fraction bits (R14). -/
def mul64 (a b : Word) : Int := s32 a * s32 b

/-- `shiftUp(a)`: a fx32 value widened to accumulator scale (R15). -/
def shiftUp (a : Word) : Int := s32 a * 2 ^ Config.frac

/-- `shiftDown(acc)`: clamp if `SATURATE`, then shift right arithmetically by 12 and keep 32 bits
(R16, 90_conflicts.md C3). -/
def shiftDown (sat : Bool) (acc : Int) : Word :=
  if sat ∧ acc > 0x000007FFFFFFFFFF then 0x7FFFFFFF
  else if sat ∧ acc < (0xFFFFF80000000000#64).toInt then 0x80000000
  else u32 (acc >>> Config.frac)

/-- `acc64(t0, ..., tk)`: the sum of the terms in the 64-bit accumulator, which wraps modulo 2^64
(R17; notes/assumptions/4.md). -/
def acc64 (terms : List Int) : Int := wrap64 terms.sum

/-- `dot(t0, ..., tk)`: the accumulator collapsed back to 32 bits (R18). -/
def dot (sat : Bool) (terms : List Int) : Word := shiftDown sat (acc64 terms)

end Sys2Proof.Machine
end

