-- ==== Sys2Proof/Machine/Operands.lean ====
section
/-! DEFINITION. How a command reads and builds matrix and vector operands: the column-major layout of
R12, the row and column a storage index names, and one element of a matrix product. -/

namespace Sys2Proof.Machine

/-- `A(r, c)`, that is `A[r + 4*c]` (R12). -/
def matAt (A : Mat) (r c : Fin 4) : Word := A[r.val + 4 * c.val]'(by omega)

/-- `row(e) = e[1:0]` (R12). -/
def rowOf (e : Fin 16) : Fin 4 := ⟨e.val % 4, by omega⟩

/-- `col(e) = e[3:2]` (R12). -/
def colOf (e : Fin 16) : Fin 4 := ⟨e.val / 4, by omega⟩

/-- The storage index of row `r`, column `c`: `r + 4*c` (R12). -/
def storageIndex (r c : Fin 4) : Fin 16 := ⟨r.val + 4 * c.val, by omega⟩

/-- The storage index the immediate `idx` is, used unscaled (R63). -/
def indexOf (idx : ElemIdx) : Fin 16 := ⟨idx.toNat, idx.isLt⟩

/-- The matrix whose element (r, c) is `f r c`, in storage order (R12). -/
def matOf (f : Fin 4 → Fin 4 → Word) : Mat := Vector.ofFn fun e => f (rowOf e) (colOf e)

/-- The vector whose lane `r` is `f r` (R22). -/
def vecOf (f : Fin 4 → Word) : Vec := Vector.ofFn f

/-- The identity matrix: one at storage elements 0, 5, 10 and 15, zero elsewhere (R83). -/
def identityMatrix : Mat :=
  Vector.ofFn fun e => if e.val = 0 ∨ e.val = 5 ∨ e.val = 10 ∨ e.val = 15 then one else 0

/-- Element (r, c) of `A × B`: `dot` of row `r` of A with column `c` of B. `MMUL` forms all sixteen
(R90), `MGETIDX` one (R100). -/
def productElement (sat : Bool) (A B : Mat) (r c : Fin 4) : Word :=
  dot sat [mul64 (matAt A r 0) (matAt B 0 c), mul64 (matAt A r 1) (matAt B 1 c),
    mul64 (matAt A r 2) (matAt B 2 c), mul64 (matAt A r 3) (matAt B 3 c)]

/-- The first three terms of row `r` of `A` with `v`: what `MVMUL4`, `MVMUL3` and `MTRANS` share
(R91, R92, R96). -/
def rowTerms3 (A : Mat) (v : Vec) (r : Fin 4) : List Int :=
  [mul64 (matAt A r 0) v[0], mul64 (matAt A r 1) v[1], mul64 (matAt A r 2) v[2]]

end Sys2Proof.Machine
end

