-- ==== Sys2Proof/Machine/Flags.lean ====
section
/-! DEFINITION. The STATUS word (R26): its bits, what sets and clears them, and the value `MCMP`
gives EQ. -/

namespace Sys2Proof.Machine

/-- The two kinds of error the block raises (R109). -/
inductive ErrorCause where
  /-- An admitted CMD write whose word is not legal (R110). -/
  | illegalCommand
  /-- A host access the window does not admit (R111). -/
  | busError
  deriving DecidableEq, Repr

/-- "The code of an error is its bit number in STATUS" (R109). -/
def ErrorCause.code : ErrorCause → Nat
  | .illegalCommand => 1
  | .busError => 2

/-- The bit number of EQ in STATUS (R26). -/
def eqBit : Nat := 0

/-- STATUS with one bit made `b`, the others as they were. -/
def withStatusBit (bit : Nat) (b : Bool) (status : Word) : Word :=
  if b then status ||| (1#32 <<< bit) else status &&& ~~~(1#32 <<< bit)

/-- A host write of STATUS with value `v`: it clears ILL if `v[1] = 1` and BUSERR if `v[2] = 1`, and
ignores every other bit (R26). -/
def writeOneToClear (status v : Word) : Word :=
  let status := if v.getLsbD 1 then withStatusBit ErrorCause.illegalCommand.code false status else status
  if v.getLsbD 2 then withStatusBit ErrorCause.busError.code false status else status

/-- The comparison of `MCMP`: all sixteen patterns equal (R85, 90_conflicts.md C2). -/
def matricesEqual (A B : Mat) : Bool := decide (∀ e : Fin 16, A[e.val] = B[e.val])

/-- The reserved bits 31..3 of a STATUS word (R26). -/
def reservedStatusBits (status : Word) : BitVec 29 := status.extractLsb' 3 29

end Sys2Proof.Machine
end

