-- ==== Sys2Proof/Machine/State.lean ====
section
/-! DEFINITION. The state of the machine as plain data: the block's registers (R21 to R23, R26), the
parameter the block is built with, and the two ends of the host bus (R20, R46). -/

namespace Sys2Proof.Machine

/-- The widths a host access may have. The window admits only the 32-bit one (R42). -/
inductive AccessWidth where
  | w8 | w16 | w32 | w64
  deriving DecidableEq, Repr

/-- The `n` of `MemRead(off, n)` and `MemWrite(off, n, v)` (R42, R45). -/
def AccessWidth.bytes : AccessWidth → Nat
  | .w8 => 1
  | .w16 => 2
  | .w32 => 4
  | .w64 => 8

/-- One thing the outside world does to the block: a host access of the window (R20, R45), or a
reset driven by the platform (R120). A write carries the word a 32-bit access moves; the data of an
access of another width is never seen (R111, R113). -/
inductive BusEvent where
  | read (off : Offset) (n : AccessWidth)
  | write (off : Offset) (n : AccessWidth) (v : Word)
  | reset
  deriving DecidableEq, Repr

/-- The machine. `scalars`, `vectors`, `matrices` and `status` are all the architectural state there
is (R32); there is no program counter (R30), no accumulator (R28) and no memory but the window onto
these registers (R40). `config` is the parameter of R9. `pending` and `returned` are the MODEL's own:
the accesses the host has issued, in bus order (R46, R118), and the words its reads were answered
with (notes/assumptions/3.md). -/
structure State where
  /-- `SATURATE` (R9): no step changes it. -/
  config : Config
  /-- `S0` to `S7` (R21). -/
  scalars : Vector Word 8
  /-- `V0` to `V7`, four lanes each (R22). -/
  vectors : Vector Vec 8
  /-- `M0` to `M7`, sixteen elements each, column-major (R23, R12). -/
  matrices : Vector Mat 8
  /-- `STATUS` (R26): bit 0 EQ, bit 1 ILL, bit 2 BUSERR, bits 31..3 reserved. -/
  status : Word
  /-- The accesses not yet performed, the next one first (R46). -/
  pending : List BusEvent
  /-- The answers to the reads performed, the oldest first (R45). -/
  returned : List Word
  deriving DecidableEq, Repr

/-- The ways the machine stops with a fault: none. Errors "do not transfer control" (R112), no
numeric result is an error (R108), and an illegal command or a non-admitted access sets a bit of
STATUS and the block goes on (R110, R111). -/
inductive Fault where
  deriving DecidableEq, Repr

/-- The ways the model gives an instruction no meaning. -/
inductive Refusal where
  /-- Raised by an arm of `exec` whose instruction has no meaning yet; safe, because the run stops.
  No arm of this model raises it. -/
  | notModelled (mnemonic : String)
  deriving DecidableEq, Repr

/-- The matrix every matrix register holds after reset: elements 0, 5, 10, 15 are `0x00001000`, all
others 0 (R33). -/
def resetMatrix : Mat :=
  #v[0x1000, 0, 0, 0,  0, 0x1000, 0, 0,  0, 0, 0x1000, 0,  0, 0, 0, 0x1000]

/-- The block right after reset, when it is built with the parameter `c` (R33, R120): no access
issued yet, and no read answered. -/
def State.resetWith (c : Config) : State where
  config := c
  scalars := Vector.replicate 8 0
  vectors := Vector.replicate 8 (Vector.replicate 4 0)
  matrices := Vector.replicate 8 resetMatrix
  status := 0
  pending := []
  returned := []

/-- The machine right after reset, in the configuration R9 calls the default. -/
def State.reset : State := State.resetWith Config.standard

end Sys2Proof.Machine
end

