-- ==== Sys2Proof/Machine/Ops.lean ====
section
/-! DEFINITION. The named operations over State: reading and writing the register files, recording an
error (the block's whole exception mechanism, R109 to R112), and the reset event (R120). -/

namespace Sys2Proof.Machine

/-! ## Register files -/

/-- `S[i]` (R21, R11). -/
def State.getS (s : State) (i : RegNo) : Word := s.scalars[i.toNat]'(i.isLt)

/-- `S[i] <- x` (R21, R11). -/
def State.setS (s : State) (i : RegNo) (x : Word) : State :=
  { s with scalars := s.scalars.set i.toNat x i.isLt }

/-- All four lanes of `V[i]` (R22, R11). -/
def State.getV (s : State) (i : RegNo) : Vec := s.vectors[i.toNat]'(i.isLt)

/-- All four lanes of `V[i]` written together (R22, R31). -/
def State.setV (s : State) (i : RegNo) (x : Vec) : State :=
  { s with vectors := s.vectors.set i.toNat x i.isLt }

/-- All sixteen elements of `M[i]` (R23, R11). -/
def State.getM (s : State) (i : RegNo) : Mat := s.matrices[i.toNat]'(i.isLt)

/-- All sixteen elements of `M[i]` written together (R23, R31). -/
def State.setM (s : State) (i : RegNo) (x : Mat) : State :=
  { s with matrices := s.matrices.set i.toNat x i.isLt }

/-- `V[i][j] <- x`: one lane, as a host write does (R43). -/
def State.setLane (s : State) (i : RegNo) (j : Fin 4) (x : Word) : State :=
  s.setV i ((s.getV i).set j.val x)

/-- `M[i][e] <- x`: one element, as a host write does (R43). -/
def State.setElem (s : State) (i : RegNo) (e : Fin 16) (x : Word) : State :=
  s.setM i ((s.getM i).set e.val x)

/-! ## STATUS and CFG -/

/-- STATUS written whole. -/
def State.setStatus (s : State) (w : Word) : State := { s with status := w }

/-- STATUS.EQ (R26). -/
def State.eq (s : State) : Bool := s.status.getLsbD eqBit

/-- STATUS.ILL (R26). -/
def State.ill (s : State) : Bool := s.status.getLsbD ErrorCause.illegalCommand.code

/-- STATUS.BUSERR (R26). -/
def State.busErr (s : State) : Bool := s.status.getLsbD ErrorCause.busError.code

/-- STATUS.EQ written; ILL and BUSERR as they were (R85). -/
def State.setEq (s : State) (b : Bool) : State := s.setStatus (withStatusBit eqBit b s.status)

/-- The constant ID reads (R24). -/
def idValue : Word := 0x464D4143

/-- What CFG reads: the field table of R25. -/
def cfgValue (c : Config) : Word :=
  0#3 ++ BitVec.ofNat 5 Config.frac ++ 0#4 ++ BitVec.ofNat 4 Config.ns ++ BitVec.ofNat 4 Config.nv
    ++ BitVec.ofNat 4 Config.nm ++ 0#7 ++ BitVec.ofBool c.saturate

/-! ## Errors and reset -/

/-- Recording an error: its STATUS bit becomes 1 and nothing else changes. Nothing is saved, no mode
changes and control goes nowhere (R110, R111, R112). No return from an error exists (R114): the host
clears the bit (`writeOneToClear`) or resets the block. -/
def State.raise (s : State) (c : ErrorCause) : State :=
  s.setStatus (withStatusBit c.code true s.status)

/-- The reset event: every piece of the block's state at its value of R33, the parameter as it was
(R120). The accesses still to come and the answers already given are the host's, not the block's. -/
def State.resetBlock (s : State) : State :=
  { State.resetWith s.config with pending := s.pending, returned := s.returned }

/-! ## The host bus -/

/-- The word a read is answered with, recorded after the earlier answers (R45). -/
def State.answer (s : State) (w : Word) : State := { s with returned := s.returned ++ [w] }

end Sys2Proof.Machine
end

