-- ==== Sys2Proof/Machine/DotProduct.lean ====
section
/-! DEFINITION. The dot-product accumulator (44_dot_product.md): MGETIDX, VDOT4. -/

namespace Sys2Proof.Machine

/-- `MGETIDX Sd, Ma, Mb, #idx` (R100): the element of `M[a] × M[b]` at storage index `idx`, row
`idx[1:0]` and column `idx[3:2]` (90_conflicts.md C1). -/
def execMgetidx (d a b : RegNo) (idx : ElemIdx) (s : State) : Host.Outcome State Fault Refusal :=
  .next (s.setS d (productElement s.config.saturate (s.getM a) (s.getM b)
    (rowOf (indexOf idx)) (colOf (indexOf idx))))

/-- `VDOT4 Sd, Va, Vb` (R101): the dot product of all four lanes. -/
def execVdot4 (d a b : RegNo) (s : State) : Host.Outcome State Fault Refusal :=
  let p := s.getV a
  let q := s.getV b
  .next (s.setS d (dot s.config.saturate
    [mul64 p[0] q[0], mul64 p[1] q[1], mul64 p[2] q[2], mul64 p[3] q[3]]))

end Sys2Proof.Machine
end

