-- ==== Sys2Proof/Machine/MatrixBasic.lean ====
section
/-! DEFINITION. Matrix identity, copy and compare (41_matrix_basic.md): MIDENT, MCOPY, MCMP. -/

namespace Sys2Proof.Machine

/-- `MIDENT Md` (R83): `M[d]` becomes the identity, whatever it held. -/
def execMident (d : RegNo) (s : State) : Host.Outcome State Fault Refusal :=
  .next (s.setM d identityMatrix)

/-- `MCOPY Md, Ma` (R84): `M[d][e] <- Mold[a][e]` for every e, bit for bit. -/
def execMcopy (d a : RegNo) (s : State) : Host.Outcome State Fault Refusal :=
  .next (s.setM d (s.getM a))

/-- `MCMP Ma, Mb` (R85): STATUS.EQ becomes 1 if all sixteen elements are equal, else 0. -/
def execMcmp (a b : RegNo) (s : State) : Host.Outcome State Fault Refusal :=
  .next (s.setEq (matricesEqual (s.getM a) (s.getM b)))

end Sys2Proof.Machine
end

