-- ==== Sys2Proof/Machine/MatrixMultiply.lean ====
section
/-! DEFINITION. The matrix multiplier (42_matrix_multiply.md): MMUL, MVMUL4, MVMUL3. The destination is
also the first operand; it is read whole before any of it is written (R29, R124). -/

namespace Sys2Proof.Machine

/-- `MMUL Md, Ma` (R90): `M[d] := M[d] × M[a]`. -/
def execMmul (d a : RegNo) (s : State) : Host.Outcome State Fault Refusal :=
  .next (s.setM d (matOf (productElement s.config.saturate (s.getM d) (s.getM a))))

/-- `MVMUL4 Vd, Ma` (R91): `V[d] := M[a] × V[d]`, all four lanes. -/
def execMvmul4 (d a : RegNo) (s : State) : Host.Outcome State Fault Refusal :=
  let A := s.getM a
  let v := s.getV d
  .next (s.setV d (vecOf fun r =>
    dot s.config.saturate (rowTerms3 A v r ++ [mul64 (matAt A r 3) v[3]])))

/-- `MVMUL3 Vd, Ma` (R92): the upper-left 3x3 block applied to lanes 0..2; lane 3 unchanged. -/
def execMvmul3 (d a : RegNo) (s : State) : Host.Outcome State Fault Refusal :=
  let A := s.getM a
  let v := s.getV d
  .next (s.setV d (vecOf fun r =>
    if r.val < 3 then dot s.config.saturate (rowTerms3 A v r) else v[3]))

end Sys2Proof.Machine
end

