-- ==== Sys2Proof/Machine/ScalarMac.lean ====
section
/-! DEFINITION. The scalar family (40_fixed_point_mac.md): NOP, SMUL, SMAC. Every operand is read from
the state the command starts in, before anything is written (R29). -/

namespace Sys2Proof.Machine

/-- `NOP` (R80): every register is unchanged. -/
def execNop (s : State) : Host.Outcome State Fault Refusal := .next s

/-- `SMUL Sd, Sa, Sb` (R81): `S[d] <- shiftDown(mul64(Sold[a], Sold[b]))`. -/
def execSmul (d a b : RegNo) (s : State) : Host.Outcome State Fault Refusal :=
  .next (s.setS d (shiftDown s.config.saturate (mul64 (s.getS a) (s.getS b))))

/-- `SMAC Sd, Sa, Sb` (R82): `S[d] <- dot(shiftUp(Sold[d]), mul64(Sold[a], Sold[b]))`. -/
def execSmac (d a b : RegNo) (s : State) : Host.Outcome State Fault Refusal :=
  .next (s.setS d (dot s.config.saturate [shiftUp (s.getS d), mul64 (s.getS a) (s.getS b)]))

end Sys2Proof.Machine
end

