-- ==== Sys2Proof/Machine/ScaleTranslate.lean ====
section
/-! DEFINITION. Scale and translate (43_scale_translate.md): MSCALE, MTRANS. Lane 3 of the vector is
never read (90_conflicts.md C5). -/

namespace Sys2Proof.Machine

/-- `MSCALE Md, Va` (R95): columns 0..2 scaled by lanes 0..2; column 3 unchanged. -/
def execMscale (d a : RegNo) (s : State) : Host.Outcome State Fault Refusal :=
  let A := s.getM d
  let v := s.getV a
  .next (s.setM d (matOf fun r c =>
    if c.val < 3 then shiftDown s.config.saturate (mul64 (matAt A r c) v[c.val])
    else matAt A r c))

/-- `MTRANS Md, Va` (R96): column 3 becomes the first three columns times lanes 0..2, added to the
old column 3 widened by `shiftUp`; columns 0..2 unchanged. -/
def execMtrans (d a : RegNo) (s : State) : Host.Outcome State Fault Refusal :=
  let A := s.getM d
  let v := s.getV a
  .next (s.setM d (matOf fun r c =>
    if c.val = 3 then dot s.config.saturate (rowTerms3 A v r ++ [shiftUp (matAt A r 3)])
    else matAt A r c))

end Sys2Proof.Machine
end

