-- ==== Sys2Proof/Machine/Dispatch.lean ====
section
/-! DEFINITION. Every command to its meaning (R31, R64). -/

namespace Sys2Proof.Machine

def exec (i : Instr) (s : State) : Host.Outcome State Fault Refusal :=
  match i with
  | .nop => Sys2Proof.Machine.execNop s
  | .mident d => Sys2Proof.Machine.execMident d s
  | .mcopy d a => Sys2Proof.Machine.execMcopy d a s
  | .mcmp a b => Sys2Proof.Machine.execMcmp a b s
  | .mmul d a => Sys2Proof.Machine.execMmul d a s
  | .mvmul4 d a => Sys2Proof.Machine.execMvmul4 d a s
  | .mvmul3 d a => Sys2Proof.Machine.execMvmul3 d a s
  | .mscale d a => Sys2Proof.Machine.execMscale d a s
  | .mtrans d a => Sys2Proof.Machine.execMtrans d a s
  | .mgetidx d a b idx => Sys2Proof.Machine.execMgetidx d a b idx s
  | .vdot4 d a b => Sys2Proof.Machine.execVdot4 d a b s
  | .smul d a b => Sys2Proof.Machine.execSmul d a b s
  | .smac d a b => Sys2Proof.Machine.execSmac d a b s

end Sys2Proof.Machine
end

