-- ==== Sys2Proof/Machine/Window.lean ====
section
/-! DEFINITION. The register window (R40 to R42, R47): which register stands at which offset, what a
register reads as, which accesses are admitted, and where the window lies in the host's address
space. -/

namespace Sys2Proof.Machine

/-- The registers of the window: the rows of the address map other than reserved (R41). -/
inductive WindowReg where
  | id
  | cfg
  | status
  | cmd
  | scalar (n : RegNo)
  | lane (n : RegNo) (j : Fin 4)
  | element (n : RegNo) (e : Fin 16)
  deriving DecidableEq, Repr

/-- The offset of a register (R41). -/
def WindowReg.offset : WindowReg → Offset
  | .id => 0x000
  | .cfg => 0x004
  | .status => 0x008
  | .cmd => 0x00C
  | .scalar n => BitVec.ofNat 12 (0x080 + 4 * n.toNat)
  | .lane n j => BitVec.ofNat 12 (0x100 + 16 * n.toNat + 4 * j.val)
  | .element n e => BitVec.ofNat 12 (0x200 + 64 * n.toNat + 4 * e.val)

/-- The register whose four bytes include the byte at an offset, `none` where the address map is
reserved (R41). -/
def regAt (off : Offset) : Option WindowReg :=
  let o := off.toNat
  if o < 0x004 then some .id
  else if o < 0x008 then some .cfg
  else if o < 0x00C then some .status
  else if o < 0x010 then some .cmd
  else if o < 0x080 then none
  else if o < 0x0A0 then some (.scalar (BitVec.ofNat 3 ((o - 0x080) / 4)))
  else if o < 0x100 then none
  else if o < 0x180 then
    some (.lane (BitVec.ofNat 3 ((o - 0x100) / 16)) (Fin.ofNat 4 ((o - 0x100) / 4)))
  else if o < 0x200 then none
  else if o < 0x400 then
    some (.element (BitVec.ofNat 3 ((o - 0x200) / 64)) (Fin.ofNat 16 ((o - 0x200) / 4)))
  else none

/-- `mapped(off)`: the address map lists the offset as other than reserved (R41, R45). -/
def mapped (off : Offset) : Bool := (regAt off).isSome

/-- `admitted(off, n) = (n = 4) and (off mod 4 = 0) and mapped(off)` (R42). -/
def admitted (off : Offset) (n : AccessWidth) : Bool :=
  n.bytes == 4 && off.toNat % 4 == 0 && mapped off

/-- The register an admitted access reaches; `none` for an access the window does not admit (R42). -/
def admittedReg (off : Offset) (n : AccessWidth) : Option WindowReg :=
  if admitted off n then regAt off else none

/-- What a register reads as (R43, R44). -/
def readReg (s : State) : WindowReg → Word
  | .id => idValue
  | .cfg => cfgValue s.config
  | .status => s.status
  | .cmd => 0
  | .scalar n => s.getS n
  | .lane n j => (s.getV n)[j.val]
  | .element n e => (s.getM n)[e.val]

/-- Byte `k` of a register, for a host that splits bus words into bytes: bits [8k+7:8k] (R47). -/
def byteOf (w : Word) (k : Nat) : Byte := w.extractLsb' (8 * k) 8

/-- The byte the window shows at an offset, `none` where the map is reserved (R41, R47). It is a view
of the registers, not an access: the block admits no byte access (R42). -/
def windowByte (s : State) (off : Offset) : Option Byte :=
  (regAt off).map fun r => byteOf (readReg s r) (off.toNat % 4)

/-! ## The window in the host's address space (R40) -/

/-- The host address of an offset: `BASE + off` (R40). -/
def hostAddress (off : Offset) : Nat := Config.base + off.toNat

/-- The offset a host address reaches; `none` for an address outside the window, which the block
never sees (R40). -/
def offsetOf (addr : Nat) : Option Offset :=
  if Config.base ≤ addr ∧ addr < Config.base + Config.windowBytes
  then some (BitVec.ofNat 12 (addr - Config.base)) else none

end Sys2Proof.Machine
end

