-- ==== Sys2Proof/Machine/HostAccess.lean ====
section
/-! DEFINITION. The host's accesses (R45), the execution of a CMD write (R31), and what one bus event
does (R46, R120). -/

namespace Sys2Proof.Machine

/-- `execute(w)`: a legal word runs as its command, an illegal one sets STATUS.ILL and has no other
effect (R31, R66, R110). -/
def execute (w : Word) (s : State) : Host.Outcome State Fault Refusal :=
  match decode w with
  | .ok i => exec i s
  | .error _ => .next (s.raise .illegalCommand)

/-- `MemRead(off, n)`: the word the host gets and the state after (R45). -/
def memRead (off : Offset) (n : AccessWidth) (s : State) : Word × State :=
  match admittedReg off n with
  | none => (0, s.raise .busError)
  | some r => (readReg s r, s)

/-- `MemWrite(off, n, v)` (R45). -/
def memWrite (off : Offset) (n : AccessWidth) (v : Word) (s : State) :
    Host.Outcome State Fault Refusal :=
  match admittedReg off n with
  | none => .next (s.raise .busError)
  | some .id => .next s
  | some .cfg => .next s
  | some .status => .next (s.setStatus (writeOneToClear s.status v))
  | some .cmd => execute v s
  | some (.scalar i) => .next (s.setS i v)
  | some (.lane i j) => .next (s.setLane i j v)
  | some (.element i e) => .next (s.setElem i e v)

/-- One bus event, performed whole before the next (R46). Reset also "ends any command in progress
without writing its destinations" (R120): since a command is performed whole, no reset finds one in
progress, and the state it leaves is the same. -/
def perform (e : BusEvent) (s : State) : Host.Outcome State Fault Refusal :=
  match e with
  | .read off n => .next ((memRead off n s).2.answer (memRead off n s).1)
  | .write off n v => memWrite off n v s
  | .reset => .next s.resetBlock

/-- The host write that issues a command word: `WR 0x00C, w` (R31, R68). -/
def issue (w : Word) : BusEvent := .write 0x00C .w32 w

end Sys2Proof.Machine
end

