-- ==== Sys2Proof/Machine/Step.lean ====
section
/-! DEFINITION. One step of the machine: one host access, or one reset, whole (R46, R126). -/

namespace Sys2Proof.Machine

/-- The next access the host has issued is performed (R46). With none issued the block does nothing:
it has "no agent of its own that can act without a host write" (R20). -/
def step (s : State) : Host.Outcome State Fault Refusal :=
  match s.pending with
  | [] => .next s
  | e :: rest => perform e { s with pending := rest }

/-- `s` with the command word in the low `nbits` bits of `w` issued as the host's next access. The
block fetches nothing (R30): what it runs next is what the host next writes to CMD
(notes/assumptions/5.md). -/
def State.withFetchWord (s : State) (nbits w : Nat) : State :=
  { s with pending := issue (BitVec.ofNat 32 (w % 2 ^ nbits)) :: s.pending }

end Sys2Proof.Machine
end

