-- ==== Sys2Proof/Machine/Assembler.lean ====
section
/-! DEFINITION. The assembler's text of a command (R68): from a line of characters to a command line,
from a command line to a command, and back. Text is a list of characters. -/

namespace Sys2Proof.Machine

/-- The name a mnemonic is written with (R64, R68). -/
def mnemonicName : Mnemonic → List Char
  | .nop => ['N', 'O', 'P']
  | .mident => ['M', 'I', 'D', 'E', 'N', 'T']
  | .mcopy => ['M', 'C', 'O', 'P', 'Y']
  | .mcmp => ['M', 'C', 'M', 'P']
  | .mmul => ['M', 'M', 'U', 'L']
  | .mvmul4 => ['M', 'V', 'M', 'U', 'L', '4']
  | .mvmul3 => ['M', 'V', 'M', 'U', 'L', '3']
  | .mscale => ['M', 'S', 'C', 'A', 'L', 'E']
  | .mtrans => ['M', 'T', 'R', 'A', 'N', 'S']
  | .mgetidx => ['M', 'G', 'E', 'T', 'I', 'D', 'X']
  | .vdot4 => ['V', 'D', 'O', 'T', '4']
  | .smul => ['S', 'M', 'U', 'L']
  | .smac => ['S', 'M', 'A', 'C']

/-- The file letters of R68. -/
def fileLetter : RegFile → Char
  | .scalar => 'S'
  | .vector => 'V'
  | .matrix => 'M'

/-- The file a letter names (R68). -/
def fileOfLetter (c : Char) : Option RegFile :=
  if c = 'S' then some .scalar else if c = 'V' then some .vector
  else if c = 'M' then some .matrix else none

/-- The digits of the bases R68 writes numbers in, each at the place that is its value. -/
def digitRow : List Char :=
  ['0', '1', '2', '3', '4', '5', '6', '7', '8', '9', 'A', 'B', 'C', 'D', 'E', 'F']

/-- The value of a digit character in a base up to 16: its place in the row. A small letter counts as
its capital, which is the model's choice (notes/assumptions/7.md). -/
def digitValue (base : Nat) (c : Char) : Option Nat :=
  (digitRow.take base).idxOf? c.toUpper

/-- The digits of a number, the first the highest, after the value `acc` read so far. -/
def digitsValue (base : Nat) : Nat → List Char → Option Nat
  | acc, [] => some acc
  | acc, c :: cs => (digitValue base c).bind fun k => digitsValue base (acc * base + k) cs

/-- A decimal number: one digit or more (R68). Zeros in front of it are accepted, so that `M03` is `M3`;
R68 shows none, and this is the model's choice (notes/assumptions/7.md). -/
def decimalValue : List Char → Option Nat
  | [] => none
  | cs => digitsValue 10 0 cs

/-- A hexadecimal number with its `0x` (R69); `_` separators "have no meaning" (R10). Zeros in front are
accepted, so that `#0x0F` is `#0xF`; R68 shows none, and this is the model's choice, as it is that the
separators may stand anywhere after the `0x` (notes/assumptions/7.md). -/
def hexValue : List Char → Option Nat
  | '0' :: 'x' :: cs =>
    match cs.filter (· ≠ '_') with
    | [] => none
    | ds => digitsValue 16 0 ds
  | _ => none

/-- The line without the spaces at its two ends. That only a space separates, and a tab does not, is the
model's choice (notes/assumptions/7.md). -/
def trimSpaces (cs : List Char) : List Char :=
  ((cs.dropWhile (· = ' ')).reverse.dropWhile (· = ' ')).reverse

/-- The pieces between the commas, the first one first. -/
def splitCommas : List Char → List (List Char)
  | [] => [[]]
  | ',' :: cs => [] :: splitCommas cs
  | c :: cs =>
    match splitCommas cs with
    | [] => [[c]]
    | p :: ps => (c :: p) :: ps

/-- The operand texts after a mnemonic: none, or pieces separated by commas (R68). -/
def operandTexts (rest : List Char) : List (List Char) :=
  match trimSpaces rest with
  | [] => []
  | cs => (splitCommas cs).map trimSpaces

/-- One operand: a file letter and a number, or `#` and a decimal or hexadecimal number (R68). -/
def parseOperand : List Char → Option AsmOperand
  | '#' :: cs => ((decimalValue cs).or (hexValue cs)).map .imm
  | c :: cs => (fileOfLetter c).bind fun f => (decimalValue cs).map (.reg f)
  | [] => none

/-- Every operand of a list of texts, `none` if one of them is no operand. -/
def parseOperands : List (List Char) → Option (List AsmOperand)
  | [] => some []
  | t :: ts => (parseOperand t).bind fun o => (parseOperands ts).map (o :: ·)

/-- The mnemonic a word names (R68). -/
def parseMnemonic (cs : List Char) : Option Mnemonic :=
  Mnemonic.all.find? fun m => mnemonicName m == cs

/-- A line as a command line: its mnemonic, then its operands (R68). -/
def parseCommandLine (line : List Char) : Except AsmError AsmCommand :=
  let cs := trimSpaces line
  match parseMnemonic (cs.takeWhile (· ≠ ' ')) with
  | none => .error .unknownMnemonic
  | some m =>
    match parseOperands (operandTexts (cs.dropWhile (· ≠ ' '))) with
    | none => .error .badOperand
    | some os => .ok ⟨m, os⟩

/-- The number an operand carries. -/
def operandNumber : AsmOperand → Nat
  | .reg _ n => n
  | .imm k => k

/-- The fields of R61 that the operands of a command line fill, in the order of its format
(R62, R68). -/
def fieldsOfOperands (c : AsmCommand) : CommandFields :=
  let f : CommandFields := { op := c.mnemonic.op }
  let reg (k : Nat) : RegNo := BitVec.ofNat 3 (((c.operands.map operandNumber)[k]?).getD 0)
  let imm (k : Nat) : ElemIdx := BitVec.ofNat 4 (((c.operands.map operandNumber)[k]?).getD 0)
  match c.mnemonic.format with
  | .n => f
  | .d => { f with d := reg 0 }
  | .da => { f with d := reg 0, a := reg 1 }
  | .ab => { f with a := reg 0, b := reg 1 }
  | .dab => { f with d := reg 0, a := reg 1, b := reg 2 }
  | .dabi => { f with d := reg 0, a := reg 1, b := reg 2, idx := imm 3 }

/-- The command a well-formed command line stands for (R68, R63). -/
def assemble (c : AsmCommand) : Except AsmError Instr :=
  match c.check with
  | some e => .error e
  | none => .ok (Instr.ofFields c.mnemonic (fieldsOfOperands c))

/-- The command a line of text stands for (R68). -/
def assembleLine (line : List Char) : Except AsmError Instr :=
  match parseCommandLine line with
  | .error e => .error e
  | .ok c => assemble c

/-- The text of an operand; an index is written in decimal (R68). -/
def operandText : AsmOperand → List Char
  | .reg f n => fileLetter f :: Nat.toDigits 10 n
  | .imm k => '#' :: Nat.toDigits 10 k

/-- Operand texts separated by commas (R68). -/
def joinOperands : List (List Char) → List Char
  | [] => []
  | [t] => t
  | t :: ts => t ++ ',' :: ' ' :: joinOperands ts

/-- The text of a command (R68). -/
def commandText (i : Instr) : List Char :=
  match i.asm.operands with
  | [] => mnemonicName i.asm.mnemonic
  | os => mnemonicName i.asm.mnemonic ++ ' ' :: joinOperands (os.map operandText)

end Sys2Proof.Machine
end

