-- ==== Sys2Proof/Machine/HostProgram.lean ====
section
/-! DEFINITION. Host programs (R69, R70): their lines as text, the expansions of the
pseudo-instructions, and the accesses a program issues. -/

namespace Sys2Proof.Machine

/-! ## From lines to accesses -/

/-- The expansion of a pseudo-instruction (R70). -/
def expandPseudo : Pseudo → List PlainLine
  | .lds n v => [.wr (WindowReg.scalar n).offset v]
  | .ldv n v => (List.finRange 4).map fun j => .wr (WindowReg.lane n j).offset v[j.val]
  | .ldm n e => (List.finRange 16).map fun k => .wr (WindowReg.element n k).offset e[k.val]
  | .sts n => [.rd (WindowReg.scalar n).offset none]
  | .stv n => (List.finRange 4).map fun j => .rd (WindowReg.lane n j).offset none
  | .stm n => (List.finRange 16).map fun k => .rd (WindowReg.element n k).offset none
  | .clrerr => [.wr WindowReg.status.offset 0x00000006]
  | .mmov d a => [.command (.mcopy d a)]

/-- A line with its pseudo-instruction, if it is one, expanded (R70). -/
def expandLine : HostLine → List PlainLine
  | .plain l => [l]
  | .pseudo p => expandPseudo p

/-- The access a line issues (R69); a command is the host write `WR 0x00C, word` (R68). -/
def lineEvent : PlainLine → BusEvent
  | .wr off v => .write off .w32 v
  | .rd off _ => .read off .w32
  | .command i => issue (encode i)

/-- The accesses a program issues, in order (R69). -/
def programEvents (p : HostProgram) : List BusEvent := (p.flatMap expandLine).map lineEvent

/-- The host issues a program, after what it has already issued. -/
def State.issueProgram (s : State) (p : HostProgram) : State :=
  { s with pending := s.pending ++ programEvents p }

/-- For each read of a program, in order, the value its line states, if any (R69). -/
def statedValues (p : HostProgram) : List (Option Word) :=
  (p.flatMap expandLine).filterMap fun
    | .rd _ v => some v
    | _ => none

/-- The answers a program got agree with the values its lines state (R69). -/
def answersAgree : List (Option Word) → List Word → Bool
  | [], [] => true
  | none :: es, _ :: ws => answersAgree es ws
  | some e :: es, w :: ws => e == w && answersAgree es ws
  | _, _ => false

/-! ## From text to lines -/

/-- An offset of the window: hexadecimal, at most 0xFFF (R69, R40). -/
def parseOffset (cs : List Char) : Option Offset :=
  ((hexValue cs).filter (· < 2 ^ 12)).map (BitVec.ofNat 12)

/-- A value: hexadecimal, at most 32 bits (R69). -/
def parseValue (cs : List Char) : Option Word :=
  ((hexValue cs).filter (· < 2 ^ 32)).map (BitVec.ofNat 32)

/-- Every value of a list of texts. -/
def parseValues : List (List Char) → Option (List Word)
  | [] => some []
  | t :: ts => (parseValue t).bind fun v => (parseValues ts).map (v :: ·)

/-- A register of the file a pseudo-instruction names (R70). -/
def parseRegister (f : RegFile) (cs : List Char) : Option RegNo :=
  match parseOperand cs with
  | some (.reg g n) => if f = g ∧ n < 8 then some (BitVec.ofNat 3 n) else none
  | _ => none

/-- The two sides of the arrow of an `RD` line, the second where there is one (R69). -/
def splitArrow : List Char → List Char × Option (List Char)
  | [] => ([], none)
  | '-' :: '>' :: cs => ([], some cs)
  | c :: cs => (c :: (splitArrow cs).1, (splitArrow cs).2)

/-- What follows `RD`: an offset, and after `->` the one value R69 shows. A line that states two, one for
each mode (`-> wrap / sat`, as program P3 of 95_test_vectors.md writes), is not accepted: R69 gives it no
form, and this is the model's choice (notes/assumptions/7.md). -/
def parseRead (rest : List Char) : Option PlainLine :=
  (parseOffset (trimSpaces (splitArrow rest).1)).bind fun off =>
    match (splitArrow rest).2 with
    | none => some (.rd off none)
    | some v => (parseValue (trimSpaces v)).map fun w => .rd off (some w)

/-- A pseudo-instruction whose name and operand texts are given (R70). -/
def parsePseudo (name : List Char) (ops : List (List Char)) : Option Pseudo :=
  match name, ops with
  | ['L', 'D', 'S'], n :: vs =>
    match parseRegister .scalar n, parseValues vs with
    | some n, some [v] => some (.lds n v)
    | _, _ => none
  | ['L', 'D', 'V'], n :: vs =>
    match parseRegister .vector n, parseValues vs with
    | some n, some vs => if h : vs.toArray.size = 4 then some (.ldv n ⟨vs.toArray, h⟩) else none
    | _, _ => none
  | ['L', 'D', 'M'], n :: vs =>
    match parseRegister .matrix n, parseValues vs with
    | some n, some vs => if h : vs.toArray.size = 16 then some (.ldm n ⟨vs.toArray, h⟩) else none
    | _, _ => none
  | ['S', 'T', 'S'], [n] => (parseRegister .scalar n).map .sts
  | ['S', 'T', 'V'], [n] => (parseRegister .vector n).map .stv
  | ['S', 'T', 'M'], [n] => (parseRegister .matrix n).map .stm
  | ['C', 'L', 'R', 'E', 'R', 'R'], [] => some .clrerr
  | ['M', 'M', 'O', 'V'], [d, a] =>
    (parseRegister .matrix d).bind fun d => (parseRegister .matrix a).map (.mmov d)
  | _, _ => none

/-- A line of a host program (R69, R70): `WR`, `RD`, a pseudo-instruction or a command. What follows
a `;` is a comment, as in the programs of 95_test_vectors.md (notes/assumptions/7.md). -/
def parseHostLine (line : List Char) : Option HostLine :=
  let cs := trimSpaces (line.takeWhile (· ≠ ';'))
  let name := cs.takeWhile (· ≠ ' ')
  let rest := cs.dropWhile (· ≠ ' ')
  match name, operandTexts rest with
  | ['W', 'R'], [off, v] =>
    (parseOffset off).bind fun off => (parseValue v).map fun v => .plain (.wr off v)
  | ['R', 'D'], _ => (parseRead rest).map .plain
  | _, ops =>
    match parsePseudo name ops with
    | some p => some (.pseudo p)
    | none =>
      match assembleLine cs with
      | .ok i => some (.plain (.command i))
      | .error _ => none

end Sys2Proof.Machine
end

