-- ==== Sys2Proof/Safety.lean ====
section
/-! DEFINITION. What statements about the machine speak of: the invariant of a state, a run without
errors, what each command may write, and the ways two states can agree. -/

namespace Sys2Proof.Machine

/-- The reserved bits of STATUS hold 0, as "nothing" sets them (R26). -/
abbrev State.Inv (s : State) : Prop := reservedStatusBits s.status = 0

/-- No error is recorded (R109). -/
def State.errorFree (s : State) : Bool := !s.ill && !s.busErr

/-- A bus event that raises no error (R113): an admitted access that, if it is a CMD write, carries a
legal word; or a reset. -/
def BusEvent.clean : BusEvent → Bool
  | .read off n => admitted off n
  | .write off n v =>
    match admittedReg off n with
    | none => false
    | some .cmd => legal v
    | some _ => true
  | .reset => true

/-- A safe step: it answers a next state, in which no error is recorded. -/
def stepIsSafe (s : State) : Bool :=
  match step s with
  | .next t => t.errorFree
  | .fault _ => false
  | .refused _ => false

/-- The registers a command may write: "only the destinations its rule names, plus STATUS.EQ for
MCMP" (R31). The lanes and elements are those of the command's own rule. -/
def writesReg : Instr → WindowReg → Bool
  | .nop, _ => false
  | .mident d, .element n _ => n == d
  | .mcopy d _, .element n _ => n == d
  | .mcmp _ _, .status => true
  | .mmul d _, .element n _ => n == d
  | .mvmul4 d _, .lane n _ => n == d
  | .mvmul3 d _, .lane n j => n == d && decide (j.val < 3)
  | .mscale d _, .element n e => n == d && decide (e.val < 12)
  | .mtrans d _, .element n e => n == d && decide (12 ≤ e.val)
  | .mgetidx d _ _ _, .scalar n => n == d
  | .vdot4 d _ _, .scalar n => n == d
  | .smul d _ _, .scalar n => n == d
  | .smac d _ _, .scalar n => n == d
  | _, _ => false

/-- The three register files are as before. -/
def SameFiles (s t : State) : Prop :=
  t.scalars = s.scalars ∧ t.vectors = s.vectors ∧ t.matrices = s.matrices

/-- The parameter and the two ends of the host bus are as before. -/
def SameBus (s t : State) : Prop :=
  t.config = s.config ∧ t.pending = s.pending ∧ t.returned = s.returned

/-- Everything but scalar register `d` is as before. -/
def SameButScalar (d : RegNo) (s t : State) : Prop :=
  (∀ i, i ≠ d → t.getS i = s.getS i) ∧ (∀ i, t.getV i = s.getV i) ∧ (∀ i, t.getM i = s.getM i) ∧
    t.status = s.status ∧ SameBus s t

/-- Everything but vector register `d` is as before. -/
def SameButVector (d : RegNo) (s t : State) : Prop :=
  (∀ i, t.getS i = s.getS i) ∧ (∀ i, i ≠ d → t.getV i = s.getV i) ∧ (∀ i, t.getM i = s.getM i) ∧
    t.status = s.status ∧ SameBus s t

/-- Everything but matrix register `d` is as before. -/
def SameButMatrix (d : RegNo) (s t : State) : Prop :=
  (∀ i, t.getS i = s.getS i) ∧ (∀ i, t.getV i = s.getV i) ∧ (∀ i, i ≠ d → t.getM i = s.getM i) ∧
    t.status = s.status ∧ SameBus s t

/-! ## The notation of the spec's pseudocode -/

/-- `op<<24 | idx<<16 | d<<8 | a<<4 | b`, the second form of the encoding function of R61. -/
def wordOfFields (op idx d a b : Nat) : Word :=
  BitVec.ofNat 32 op <<< 24 ||| BitVec.ofNat 32 idx <<< 16 ||| BitVec.ofNat 32 d <<< 8 |||
    BitVec.ofNat 32 a <<< 4 ||| BitVec.ofNat 32 b

/-- The command is the meaning of this word and of no other (R60, R65). -/
def EncodedAs (i : Instr) (w : Word) : Prop := ∀ v, decode v = .ok i ↔ v = w

/-- `s32(A[e])` for a storage index written as a number (R11, R10). -/
def elemInt (A : Mat) (e : Nat) : Int := if h : e < 16 then (A[e]).toInt else 0

/-- `s32(v[j])` for a lane written as a number (R11, R10). -/
def laneInt (v : Vec) (j : Nat) : Int := if h : j < 4 then (v[j]).toInt else 0

/-- Element `e` of the product of two matrices before the shift-down: the four-term sum of R90 in the
64-bit accumulator, with `r` and `c` the row and column of `e`. -/
def productSum (A B : Mat) (r c : Nat) : Int :=
  wrap64 (elemInt A (r + 0) * elemInt B (0 + 4 * c) + elemInt A (r + 4) * elemInt B (1 + 4 * c) +
    elemInt A (r + 8) * elemInt B (2 + 4 * c) + elemInt A (r + 12) * elemInt B (3 + 4 * c))

/-- The identity with elements 0, 5, 10 replaced by lanes 0, 1, 2 of `v` (R97). -/
def scalingMatrix (v : Vec) : Mat :=
  #v[v[0], 0, 0, 0,  0, v[1], 0, 0,  0, 0, v[2], 0,  0, 0, 0, 0x1000]

/-- The identity with elements 12, 13, 14 replaced by lanes 0, 1, 2 of `v` (R97). -/
def translationMatrix (v : Vec) : Mat :=
  #v[0x1000, 0, 0, 0,  0, 0x1000, 0, 0,  0, 0, 0x1000, 0,  v[0], v[1], v[2], 0x1000]

/-- The reserved opcodes: 0x04-0x0F, 0x17-0x1F and 0x22-0xFF (R66). -/
def ReservedOpcode (op : Nat) : Prop :=
  (0x04 ≤ op ∧ op ≤ 0x0F) ∨ (0x17 ≤ op ∧ op ≤ 0x1F) ∨ (0x22 ≤ op ∧ op ≤ 0xFF)

/-- The offsets the address map lists as other than reserved (R41). -/
def ListedOffset (o : Nat) : Prop :=
  o < 0x010 ∨ (0x080 ≤ o ∧ o ≤ 0x09F) ∨ (0x100 ≤ o ∧ o ≤ 0x17F) ∨ (0x200 ≤ o ∧ o ≤ 0x3FF)

end Sys2Proof.Machine
end

