-- ==== Sys2Proof/Certificates/Slice0/Obligations.lean ====
section
/-! DEFINITION. The statements about the FX-MAC block, for the provers. A statement about a command
says which word it is, that it answers a next state, what that state holds, and that everything else
is as before. -/

open Sys2Proof Sys2Proof.Machine

/-! ## The commands, one statement each -/

/-- R80: `NOP` is the all-zero word and leaves every register unchanged. -/
def Obligations.NopLeavesEverythingUnchanged : Prop :=
  EncodedAs .nop 0x00000000 ∧ ∀ s, exec .nop s = .next s

/-- R81: `S[d] <- shiftDown(mul64(Sold[a], Sold[b]))`; no flag written, nothing else changed. -/
def Obligations.SmulWritesTheShiftedProduct : Prop :=
  ∀ (d a b : RegNo) (s : State),
    EncodedAs (.smul d a b) (wordOfFields 0x20 0 d.toNat a.toNat b.toNat) ∧
    ∃ t, exec (.smul d a b) s = .next t ∧
      t.getS d = shiftDown s.config.saturate ((s.getS a).toInt * (s.getS b).toInt) ∧
      SameButScalar d s t

/-- R82: `S[d] <- shiftDown(wrap64(s32(Sold[d]) * 4096 + s32(Sold[a]) * s32(Sold[b])))`. -/
def Obligations.SmacAddsTheProductToTheDestination : Prop :=
  ∀ (d a b : RegNo) (s : State),
    EncodedAs (.smac d a b) (wordOfFields 0x21 0 d.toNat a.toNat b.toNat) ∧
    ∃ t, exec (.smac d a b) s = .next t ∧
      t.getS d = shiftDown s.config.saturate
        (wrap64 ((s.getS d).toInt * 4096 + (s.getS a).toInt * (s.getS b).toInt)) ∧
      SameButScalar d s t

/-- R83: elements 0, 5, 10, 15 become `0x00001000` and all others 0, whatever `M[d]` held. -/
def Obligations.MidentWritesTheIdentity : Prop :=
  ∀ (d : RegNo) (s : State),
    EncodedAs (.mident d) (wordOfFields 0x01 0 d.toNat 0 0) ∧
    ∃ t, exec (.mident d) s = .next t ∧
      (∀ e : Fin 16, (t.getM d)[e.val] =
        if e.val ∈ [0, 5, 10, 15] then 0x00001000 else 0x00000000) ∧
      SameButMatrix d s t

/-- R84: every element is copied bit for bit; `d = a` leaves the state as it is. -/
def Obligations.McopyCopiesEveryElement : Prop :=
  ∀ (d a : RegNo) (s : State),
    EncodedAs (.mcopy d a) (wordOfFields 0x02 0 d.toNat a.toNat 0) ∧
    (∃ t, exec (.mcopy d a) s = .next t ∧
      (∀ e : Fin 16, (t.getM d)[e.val] = (s.getM a)[e.val]) ∧ SameButMatrix d s t) ∧
    exec (.mcopy d d) s = .next s

/-- R85: EQ becomes 1 exactly when all sixteen patterns are equal; ILL and BUSERR, the other bits of
STATUS and every register are unchanged; `a = b` always gives EQ = 1. -/
def Obligations.McmpReportsEquality : Prop :=
  ∀ (a b : RegNo) (s : State),
    EncodedAs (.mcmp a b) (wordOfFields 0x03 0 0 a.toNat b.toNat) ∧
    (∃ t, exec (.mcmp a b) s = .next t ∧
      (t.eq = true ↔ ∀ e : Fin 16, (s.getM a)[e.val] = (s.getM b)[e.val]) ∧
      t.status.extractLsb' 1 31 = s.status.extractLsb' 1 31 ∧
      SameFiles s t ∧ SameBus s t) ∧
    ∃ t, exec (.mcmp a a) s = .next t ∧ t.eq = true

/-- R90: output (r, c) is the shift-down of the wrapped four-term sum of row r of `Mold[d]` with column
c of `Mold[a]`, also when `a = d`. -/
def Obligations.MmulWritesTheProduct : Prop :=
  ∀ (d a : RegNo) (s : State),
    EncodedAs (.mmul d a) (wordOfFields 0x10 0 d.toNat a.toNat 0) ∧
    ∃ t, exec (.mmul d a) s = .next t ∧
      (∀ e : Fin 16, (t.getM d)[e.val] =
        shiftDown s.config.saturate (productSum (s.getM d) (s.getM a) (e.val % 4) (e.val / 4))) ∧
      SameButMatrix d s t

/-- R91: `V[d] := M[a] × V[d]`, all four lanes. -/
def Obligations.Mvmul4WritesTheTransformedVector : Prop :=
  ∀ (d a : RegNo) (s : State),
    EncodedAs (.mvmul4 d a) (wordOfFields 0x11 0 d.toNat a.toNat 0) ∧
    ∃ t, exec (.mvmul4 d a) s = .next t ∧
      (∀ r : Fin 4, (t.getV d)[r.val] = shiftDown s.config.saturate (wrap64
        (elemInt (s.getM a) r.val * laneInt (s.getV d) 0 +
          elemInt (s.getM a) (r.val + 4) * laneInt (s.getV d) 1 +
          elemInt (s.getM a) (r.val + 8) * laneInt (s.getV d) 2 +
          elemInt (s.getM a) (r.val + 12) * laneInt (s.getV d) 3))) ∧
      SameButVector d s t

/-- R92: the upper-left 3x3 block applied to lanes 0..2; lane 3 is bit-identical to its old value. -/
def Obligations.Mvmul3KeepsTheFourthLane : Prop :=
  ∀ (d a : RegNo) (s : State),
    EncodedAs (.mvmul3 d a) (wordOfFields 0x12 0 d.toNat a.toNat 0) ∧
    ∃ t, exec (.mvmul3 d a) s = .next t ∧
      (∀ r : Fin 4, r.val < 3 → (t.getV d)[r.val] = shiftDown s.config.saturate (wrap64
        (elemInt (s.getM a) r.val * laneInt (s.getV d) 0 +
          elemInt (s.getM a) (r.val + 4) * laneInt (s.getV d) 1 +
          elemInt (s.getM a) (r.val + 8) * laneInt (s.getV d) 2))) ∧
      (t.getV d)[3] = (s.getV d)[3] ∧
      SameButVector d s t

/-- R95: columns 0..2 are scaled element by element by lanes 0..2; column 3 is unchanged. -/
def Obligations.MscaleScalesThreeColumns : Prop :=
  ∀ (d a : RegNo) (s : State),
    EncodedAs (.mscale d a) (wordOfFields 0x13 0 d.toNat a.toNat 0) ∧
    ∃ t, exec (.mscale d a) s = .next t ∧
      (∀ e : Fin 16, (t.getM d)[e.val] =
        if e.val < 12 then shiftDown s.config.saturate
          (elemInt (s.getM d) e.val * laneInt (s.getV a) (e.val / 4))
        else (s.getM d)[e.val]) ∧
      SameButMatrix d s t

/-- R96: column 3 becomes the first three columns times lanes 0..2 plus the widened old column 3, all
four rows; columns 0..2 are unchanged. -/
def Obligations.MtransUpdatesTheFourthColumn : Prop :=
  ∀ (d a : RegNo) (s : State),
    EncodedAs (.mtrans d a) (wordOfFields 0x14 0 d.toNat a.toNat 0) ∧
    ∃ t, exec (.mtrans d a) s = .next t ∧
      (∀ r : Fin 4, elemInt (t.getM d) (12 + r.val) = (shiftDown s.config.saturate (wrap64
        (elemInt (s.getM d) r.val * laneInt (s.getV a) 0 +
          elemInt (s.getM d) (r.val + 4) * laneInt (s.getV a) 1 +
          elemInt (s.getM d) (r.val + 8) * laneInt (s.getV a) 2 +
          elemInt (s.getM d) (12 + r.val) * 4096))).toInt) ∧
      (∀ e : Fin 16, e.val < 12 → (t.getM d)[e.val] = (s.getM d)[e.val]) ∧
      SameButMatrix d s t

/-- R100: the element of `M[a] × M[b]` at storage index idx, row `idx[1:0]` and column `idx[3:2]`. -/
def Obligations.MgetidxWritesOneProductElement : Prop :=
  ∀ (d a b : RegNo) (idx : ElemIdx) (s : State),
    EncodedAs (.mgetidx d a b idx) (wordOfFields 0x15 idx.toNat d.toNat a.toNat b.toNat) ∧
    ∃ t, exec (.mgetidx d a b idx) s = .next t ∧
      t.getS d = shiftDown s.config.saturate
        (productSum (s.getM a) (s.getM b) (idx.extractLsb' 0 2).toNat (idx.extractLsb' 2 2).toNat) ∧
      SameButScalar d s t

/-- R101: the four-term dot product of two vector registers. -/
def Obligations.Vdot4WritesTheDotProduct : Prop :=
  ∀ (d a b : RegNo) (s : State),
    EncodedAs (.vdot4 d a b) (wordOfFields 0x16 0 d.toNat a.toNat b.toNat) ∧
    ∃ t, exec (.vdot4 d a b) s = .next t ∧
      t.getS d = shiftDown s.config.saturate (wrap64
        (laneInt (s.getV a) 0 * laneInt (s.getV b) 0 + laneInt (s.getV a) 1 * laneInt (s.getV b) 1 +
          laneInt (s.getV a) 2 * laneInt (s.getV b) 2 +
          laneInt (s.getV a) 3 * laneInt (s.getV b) 3)) ∧
      SameButScalar d s t

/-! ## The numeric primitives -/

/-- R16: in saturating mode the floor of acc/4096 or the nearer bound; in wrap mode bits [43:12] of the
accumulator; the two thresholds themselves do not saturate. -/
def Obligations.ShiftDownClampsOrWraps : Prop :=
  (∀ acc : Int, (shiftDown true acc).toInt = max (-2 ^ 31) (min (2 ^ 31 - 1) (acc / 4096))) ∧
  (∀ acc : BitVec 64, shiftDown false acc.toInt = acc.extractLsb' 12 32) ∧
  (∀ sat, shiftDown sat 0x000007FFFFFFFFFF = 0x7FFFFFFF) ∧
  ∀ sat, shiftDown sat (-2 ^ 43) = 0x80000000

/-- R14, with the bound the spec derives there: a product's magnitude is at most 2^62, reached only by
`0x80000000` squared, so it is exact in 64 bits. -/
def Obligations.ProductsFitTheAccumulator : Prop :=
  ∀ a b : Word, (mul64 a b).natAbs ≤ 2 ^ 62 ∧
    ((mul64 a b).natAbs = 2 ^ 62 ↔ a = 0x80000000 ∧ b = 0x80000000) ∧
    acc64 [mul64 a b] = mul64 a b

/-- R17: the accumulator is the sum of the terms wrapped to the signed 64-bit range, and the order of
summation cannot change it. -/
def Obligations.AccumulatorWrapsInAnyOrder : Prop :=
  ∀ ts us : List Int, ts.Perm us →
    acc64 ts = acc64 us ∧ -2 ^ 63 ≤ acc64 ts ∧ acc64 ts ≤ 2 ^ 63 - 1 ∧
      (2 ^ 64 : Int) ∣ acc64 ts - ts.sum ∧
      (-2 ^ 63 ≤ ts.sum → ts.sum ≤ 2 ^ 63 - 1 → acc64 ts = ts.sum)

/-- Derived in the corner cases of R82: `shiftDown(shiftUp(x)) = x` for every 32-bit x, in both
modes. -/
def Obligations.ShiftDownUndoesShiftUp : Prop :=
  ∀ (sat : Bool) (x : Word), shiftDown sat (shiftUp x) = x ∧ dot sat [shiftUp x] = x

/-! ## Laws between commands -/

/-- R93: the product with the identity, on either side, is the other factor exactly, in both modes. -/
def Obligations.MmulByIdentityIsExact : Prop :=
  ∀ (d a : RegNo) (X : Mat) (s : State),
    (s.getM d = resetMatrix → s.getM a = X → ∃ t, exec (.mmul d a) s = .next t ∧ t.getM d = X) ∧
    (s.getM d = X → s.getM a = resetMatrix → ∃ t, exec (.mmul d a) s = .next t ∧ t.getM d = X)

/-- Derived in R97 ("Both hold because every extra term in the `MMUL` sum is a product with 0"): `MSCALE`
equals `MMUL` by the scaling matrix, and `MTRANS` equals `MMUL` by the translation
matrix, on all sixteen elements, in both modes. -/
def Obligations.ScaleAndTranslateAreProducts : Prop :=
  ∀ (d a x : RegNo) (s : State),
    (s.getM x = scalingMatrix (s.getV a) →
      ∃ t u, exec (.mscale d a) s = .next t ∧ exec (.mmul d x) s = .next u ∧
        t.getM d = u.getM d) ∧
    (s.getM x = translationMatrix (s.getV a) →
      ∃ t u, exec (.mtrans d a) s = .next t ∧ exec (.mmul d x) s = .next u ∧
        t.getM d = u.getM d)

/-- Derived in R98 ("On the identity every product is `v·0x1000` and is exact"): two translations of the
identity give the column 3 of one translation by the sum, when no lane of the sum overflows 32
bits. -/
def Obligations.TranslationsOfIdentityCompose : Prop :=
  ∀ (d a b c : RegNo) (s : State), s.getM d = resetMatrix →
    (∀ j : Fin 4, j.val < 3 →
      laneInt (s.getV c) j.val = laneInt (s.getV a) j.val + laneInt (s.getV b) j.val) →
    ∃ t u w, exec (.mtrans d a) s = .next t ∧ exec (.mtrans d b) t = .next u ∧
      exec (.mtrans d c) s = .next w ∧
      ∀ r : Fin 4, elemInt (u.getM d) (12 + r.val) = elemInt (w.getM d) (12 + r.val)

/-- R102: `MGETIDX` gives element idx of the matrix that `MMUL` of the same factors leaves. -/
def Obligations.MgetidxIsAnElementOfMmul : Prop :=
  ∀ (e a b d x : RegNo) (idx : ElemIdx) (s u : State), s.config = u.config →
    u.getM d = s.getM a → u.getM x = s.getM b →
    ∃ t w, exec (.mgetidx e a b idx) s = .next t ∧ exec (.mmul d x) u = .next w ∧
      t.getS e = (w.getM d)[idx.toNat]'(idx.isLt)

/-- Derived in the corner cases of R82: a zero factor leaves the whole state unchanged, in both modes. -/
def Obligations.SmacByZeroChangesNothing : Prop :=
  ∀ (d a b : RegNo) (s : State), s.getS a = 0 ∨ s.getS b = 0 → exec (.smac d a b) s = .next s

/-- Derived in the corner cases of R91: the identity matrix leaves the whole state unchanged. -/
def Obligations.Mvmul4ByIdentityChangesNothing : Prop :=
  ∀ (d a : RegNo) (s : State), s.getM a = resetMatrix → exec (.mvmul4 d a) s = .next s

/-- R92, R95, R96: what the spec says is never read has no influence. `MVMUL3` does not read row 3 or
column 3 of the matrix, nor lane 3 for lanes 0..2; `MSCALE` and `MTRANS` do not read lane 3. -/
def Obligations.UnreadOperandsHaveNoInfluence : Prop :=
  ∀ (d a : RegNo) (s u : State), s.config = u.config →
    ((∀ e : Fin 16, e.val % 4 < 3 → e.val < 12 → (u.getM a)[e.val] = (s.getM a)[e.val]) →
      (∀ j : Fin 4, j.val < 3 → (u.getV d)[j.val] = (s.getV d)[j.val]) →
      ∃ t w, exec (.mvmul3 d a) s = .next t ∧ exec (.mvmul3 d a) u = .next w ∧
        ∀ j : Fin 4, j.val < 3 → (w.getV d)[j.val] = (t.getV d)[j.val]) ∧
    (s.getM d = u.getM d → (∀ j : Fin 4, j.val < 3 → (u.getV a)[j.val] = (s.getV a)[j.val]) →
      (∃ t w, exec (.mscale d a) s = .next t ∧ exec (.mscale d a) u = .next w ∧
        w.getM d = t.getM d) ∧
      ∃ t w, exec (.mtrans d a) s = .next t ∧ exec (.mtrans d a) u = .next w ∧
        w.getM d = t.getM d)

/-! ## Encoding -/

/-- Every command is well formed, its word decodes back to it, and the host's view of the decoder
agrees. -/
def Obligations.DecodeInvertsEncode : Prop :=
  ∀ i : Instr, i.wellFormed = true ∧ decode (encode i) = .ok i ∧
    decodeTableWord 32 (encode i).toNat = some i

/-- The other direction: a word that decodes is the encoding of what it decodes to, so that no bit of a
command word goes unread. -/
def Obligations.EncodeInvertsDecode : Prop :=
  ∀ (w : Word) (i : Instr), decode w = .ok i → encode i = w

/-- R65: a word is the command of a row exactly when `(word & mask) = match`, and no two rows match the
same word. -/
def Obligations.RowsMatchExactlyTheirCommands : Prop :=
  ∀ w : Word,
    (∀ m : Mnemonic, w &&& m.maskWord = m.matchWord ↔ ∃ i, decode w = .ok i ∧ i.mnemonic = m) ∧
    ∀ m m' : Mnemonic, w &&& m.maskWord = m.matchWord → w &&& m'.maskWord = m'.matchWord → m = m'

/-- R66: a word is illegal when its op is one of 0x04-0x0F, 0x17-0x1F, 0x22-0xFF, when any of z0 to z4
is nonzero, or when a field its format does not use is nonzero; it then sets STATUS.ILL and has no
other effect. -/
def Obligations.IllegalWordsOnlySetIll : Prop :=
  ∀ (w : Word) (s : State),
    (legal w = false ↔
      ReservedOpcode (w.extractLsb' 24 8).toNat ∨
      w &&& 0x00F0F888 ≠ 0 ∨
      ∃ m : Mnemonic, m.op = w.extractLsb' 24 8 ∧
        (CommandFields.ofWord w).unusedZero m.format = false) ∧
    (legal w = false → execute w s = .next { s with status := s.status ||| 0x00000002 })

/-- A few words of the decode table, written out from R61 and R64. -/
def Obligations.ListedWordsDecode : Prop :=
  decode 0x00000000 = .ok .nop ∧ decode 0x01000300 = .ok (.mident 3) ∧
  decode 0x03000001 = .ok (.mcmp 0 1) ∧ decode 0x11000200 = .ok (.mvmul4 2 0) ∧
  decode 0x13000410 = .ok (.mscale 4 1) ∧ decode 0x15060201 = .ok (.mgetidx 2 0 1 6) ∧
  decode 0x21000345 = .ok (.smac 3 4 5) ∧ decode 0x01000800 = .error .reservedBits ∧
  decode 0x03000100 = .error .unusedField ∧ decode 0xFF000000 = .error .reservedOpcode

/-- R68: the text of a command, read back by the assembler, is that command. How the text is spaced is
the model's choice (notes/assumptions/7.md). -/
def Obligations.AssemblerReadsBackItsText : Prop :=
  ∀ i : Instr, assembleLine (commandText i) = .ok i

/-! ## The register window -/

/-- R41: the listed offsets, and the register at each. -/
def Obligations.AddressMapIsExact : Prop :=
  (∀ off : Offset, mapped off = true ↔ ListedOffset off.toNat) ∧
  regAt 0x000 = some .id ∧ regAt 0x004 = some .cfg ∧ regAt 0x008 = some .status ∧
  regAt 0x00C = some .cmd ∧
  (∀ n : RegNo, regAt (BitVec.ofNat 12 (0x080 + 4 * n.toNat)) = some (.scalar n)) ∧
  (∀ (n : RegNo) (j : Fin 4),
    regAt (BitVec.ofNat 12 (0x100 + 16 * n.toNat + 4 * j.val)) = some (.lane n j)) ∧
  ∀ (n : RegNo) (e : Fin 16),
    regAt (BitVec.ofNat 12 (0x200 + 64 * n.toNat + 4 * e.val)) = some (.element n e)

/-- R42, R111: an access of another width, misaligned or at a reserved offset reads as 0, writes
nothing, and sets STATUS.BUSERR; nothing else changes. -/
def Obligations.NonAdmittedAccessesOnlySetBuserr : Prop :=
  ∀ (off : Offset) (n : AccessWidth) (v : Word) (s : State),
    ¬ (n.bytes = 4 ∧ off.toNat % 4 = 0 ∧ ListedOffset off.toNat) →
    memRead off n s = (0, { s with status := s.status ||| 0x00000004 }) ∧
    memWrite off n v s = .next { s with status := s.status ||| 0x00000004 }

/-- R43: an admitted read of S, V or M returns the register; an admitted write sets exactly that
register to the raw pattern. -/
def Obligations.RegisterFilesReadAndWrite : Prop :=
  ∀ (r : WindowReg) (v : Word) (s : State), r ∉ [WindowReg.id, .cfg, .status, .cmd] →
    memRead r.offset .w32 s = (readReg s r, s) ∧
    ∃ t, memWrite r.offset .w32 v s = .next t ∧ readReg t r = v ∧
      (∀ r', r' ≠ r → readReg t r' = readReg s r') ∧ t.status = s.status ∧ SameBus s t

/-- R44: the admitted accesses of ID, CFG, STATUS and CMD. -/
def Obligations.ControlRegistersReadAndWrite : Prop :=
  ∀ (v : Word) (s : State),
    memRead 0x000 .w32 s = (0x464D4143, s) ∧
    memRead 0x004 .w32 s = (if s.config.saturate then 0x0C088801 else 0x0C088800, s) ∧
    memWrite 0x000 .w32 v s = .next s ∧ memWrite 0x004 .w32 v s = .next s ∧
    memRead 0x008 .w32 s = (s.status, s) ∧
    memWrite 0x008 .w32 v s = .next { s with status := s.status &&& ~~~(v &&& 0x00000006) } ∧
    memRead 0x00C .w32 s = (0, s) ∧ memWrite 0x00C .w32 v s = execute v s

/-- R25: the fields of CFG; host writes of it are ignored and raise no error. -/
def Obligations.CfgReportsTheParameters : Prop :=
  ∀ (v : Word) (s : State), let w := (memRead 0x004 .w32 s).1
    w.getLsbD 0 = s.config.saturate ∧ w.extractLsb' 1 7 = 0 ∧ w.extractLsb' 8 4 = 8 ∧
    w.extractLsb' 12 4 = 8 ∧ w.extractLsb' 16 4 = 8 ∧ w.extractLsb' 20 4 = 0 ∧
    w.extractLsb' 24 5 = 12 ∧ w.extractLsb' 29 3 = 0 ∧ memWrite 0x004 .w32 v s = .next s

/-- R48: a read has no side effect, except that a non-admitted one sets STATUS.BUSERR; rewriting S, V, M,
ID, CFG or STATUS with the same value changes nothing more; issuing the same command word twice can
differ from issuing it once. -/
def Obligations.WritesAreIdempotentExceptCmd : Prop :=
  (∀ (off : Offset) (n : AccessWidth) (s : State),
    (memRead off n s).2 = if admitted off n then s else { s with status := s.status ||| 0x00000004 }) ∧
  (∀ (off : Offset) (n : AccessWidth) (v : Word) (s t : State), regAt off ≠ some .cmd →
    memWrite off n v s = .next t → memWrite off n v t = .next t) ∧
  ∃ (w : Word) (s t : State), memWrite 0x00C .w32 w s = .next t ∧
    memWrite 0x00C .w32 w t ≠ .next t

/-- R47: the byte at offset `off + k` of a register is its bits [8k+7:8k]; the four bytes, highest
first, are the register. -/
def Obligations.WindowBytesAreLittleEndian : Prop :=
  ∀ (r : WindowReg) (s : State), ∃ b0 b1 b2 b3 : Byte,
    windowByte s r.offset = some b0 ∧ windowByte s (r.offset + 1) = some b1 ∧
    windowByte s (r.offset + 2) = some b2 ∧ windowByte s (r.offset + 3) = some b3 ∧
    readReg s r = b3 ++ b2 ++ b1 ++ b0

/-- R40: the window is 4096 bytes from a 4 KiB-aligned `BASE`, whatever `BASE` is; a host address
reaches the offset it exceeds `BASE` by, and no address outside the window reaches any. -/
def Obligations.WindowIsFourKiBFromBase : Prop :=
  Config.base % 4096 = 0 ∧ (∀ off : Offset, offsetOf (hostAddress off) = some off) ∧
  ∀ addr : Nat, (∀ off, offsetOf addr = some off → addr = Config.base + off.toNat) ∧
    (offsetOf addr = none ↔ addr < Config.base ∨ Config.base + 4096 ≤ addr)

/-! ## Steps

`State.pending` is the model's form of the host's side of the bus (notes/assumptions/3.md). -/

/-- R31, R44: a host write of CMD that decodes runs exactly its command, with the access taken off the bus.
Two clauses are the model's form: that a word placed by `withFetchWord` runs as the host's next CMD
write (notes/assumptions/5.md, DEDUCED), and that with no access issued a step keeps the state, as R20's
block with "no agent of its own that can act without a host write" (notes/assumptions/3.md, DESIGN
CHOICE). -/
def Obligations.StepRunsTheDecodedCommand : Prop :=
  (∀ (s : State) (w : Word) (i : Instr) (rest : List BusEvent),
    s.pending = .write 0x00C .w32 w :: rest → decode w = .ok i →
    step s = exec i { s with pending := rest }) ∧
  (∀ (s : State) (nbits w : Nat) (i : Instr), decodeTableWord nbits w = some i →
    step (s.withFetchWord nbits w) = exec i s) ∧
  ∀ s : State, s.pending = [] → step s = .next s

/-- R31, R110: a CMD write of a word that is not a command sets STATUS.ILL and changes nothing else. That
the write stands at the head of `pending` is the model's form (notes/assumptions/3.md). -/
def Obligations.StepRecordsAnIllegalCommand : Prop :=
  ∀ (s : State) (w : Word) (rest : List BusEvent),
    s.pending = .write 0x00C .w32 w :: rest → legal w = false →
    ∃ t, step s = .next t ∧ t.ill = true ∧ t.eq = s.eq ∧ t.busErr = s.busErr ∧
      reservedStatusBits t.status = reservedStatusBits s.status ∧ SameFiles s t ∧
      t.config = s.config ∧ t.pending = rest ∧ t.returned = s.returned

/-- R46, R43: a read that follows a write of the same S, V or M register returns the value written. -/
def Obligations.ReadFollowsTheLastWrite : Prop :=
  ∀ (s : State) (r : WindowReg) (v : Word) (rest : List BusEvent),
    r ∉ [WindowReg.id, .cfg, .status, .cmd] →
    s.pending = .write r.offset .w32 v :: .read r.offset .w32 :: rest →
    ∃ t u, step s = .next t ∧ step t = .next u ∧ u.returned = s.returned ++ [v] ∧
      u.pending = rest ∧ readReg u r = v ∧ u.status = s.status

/-- R120, R33: the reset event sets every register, and changes neither the parameter nor ID nor CFG. The
last two clauses, that a reset leaves the host's own accesses and answers alone, are the model's and
not R120's (notes/assumptions/8.md, DEDUCED). -/
def Obligations.ResetEventRestoresTheBlock : Prop :=
  ∀ (s : State) (rest : List BusEvent), s.pending = .reset :: rest →
    ∃ t, step s = .next t ∧ (∀ n, t.getM n = resetMatrix) ∧ (∀ n, t.getV n = #v[0, 0, 0, 0]) ∧
      (∀ n, t.getS n = 0) ∧ t.status = 0 ∧ t.config = s.config ∧
      readReg t .id = readReg s .id ∧ readReg t .cfg = readReg s .cfg ∧
      t.pending = rest ∧ t.returned = s.returned

/-- R33: the reset values, whatever the parameter, and what ID, CFG and CMD read then. The last clause is
the model's choice, not R33's: `State.reset` is the one of the configuration R9 calls the default,
`SATURATE = false` (notes/assumptions/1.md, DESIGN CHOICE). -/
def Obligations.ResetLeavesTheStatedValues : Prop :=
  (∀ c : Config,
    (∀ (n : RegNo) (e : Fin 16), ((State.resetWith c).getM n)[e.val] =
      if e.val ∈ [0, 5, 10, 15] then 0x00001000 else 0x00000000) ∧
    (∀ (n : RegNo) (j : Fin 4), ((State.resetWith c).getV n)[j.val] = 0) ∧
    (∀ n : RegNo, (State.resetWith c).getS n = 0) ∧
    (State.resetWith c).status = 0 ∧ (State.resetWith c).eq = false ∧
    (State.resetWith c).ill = false ∧ (State.resetWith c).busErr = false ∧
    readReg (State.resetWith c) .id = 0x464D4143 ∧
    readReg (State.resetWith c) .cfg = (if c.saturate then 0x0C088801 else 0x0C088800) ∧
    readReg (State.resetWith c) .cmd = 0 ∧
    (State.resetWith c).config = c) ∧
  State.reset = State.resetWith { saturate := false }

/-- The reset state meets the invariant, in both configurations. -/
def Obligations.ResetMeetsTheInvariant : Prop :=
  State.reset.Inv ∧ ∀ c : Config, (State.resetWith c).Inv

/-- R26: nothing sets a reserved bit of STATUS. From every state where they read 0, every step, whatever
the host or the platform does, leaves them reading 0. -/
def Obligations.EveryStepKeepsReservedStatusBitsZero : Prop :=
  ∀ s t : State, s.Inv → step s = .next t → t.Inv

/-- R108, R112, R119: the block never stops. Every state has a next state. -/
def Obligations.EveryStateHasANextState : Prop :=
  (∀ (i : Instr) (s : State), ∃ t, exec i s = .next t) ∧ ∀ s : State, ∃ t, step s = .next t

/-- R9: "No command and no register write changes it", nor does reset: `SATURATE` is the same after
every step. -/
def Obligations.NoStepChangesTheParameter : Prop :=
  ∀ s t : State, step s = .next t → t.config = s.config

/-- R46, R126: each access is one step. A step takes exactly the next access off the bus, and answers
one word if it is a read and none otherwise. -/
def Obligations.EachStepPerformsOneAccess : Prop :=
  ∀ (s t : State) (e : BusEvent) (rest : List BusEvent), s.pending = e :: rest →
    step s = .next t → t.pending = rest ∧
      ((∃ off n, e = .read off n ∧ t.returned = s.returned ++ [(memRead off n s).1]) ∨
        (∀ off n, e ≠ .read off n) ∧ t.returned = s.returned)

/-- R26: EQ changes only when a reset happens or a `MCMP` is issued. -/
def Obligations.OnlyCompareChangesEq : Prop :=
  ∀ s t : State, step s = .next t → t.eq ≠ s.eq →
    ∃ e rest, s.pending = e :: rest ∧
      (e = .reset ∨ ∃ w a b, e = .write 0x00C .w32 w ∧ decode w = .ok (.mcmp a b))

/-- R114: ILL and BUSERR stay set until the host writes STATUS with the bit's position set, or a reset
occurs. -/
def Obligations.ErrorBitsStaySetUntilCleared : Prop :=
  ∀ s t : State, step s = .next t →
    ((s.ill = true ∧ t.ill = false) → ∃ e rest, s.pending = e :: rest ∧
      (e = .reset ∨ ∃ v, e = .write 0x008 .w32 v ∧ v.getLsbD 1 = true)) ∧
    ((s.busErr = true ∧ t.busErr = false) → ∃ e rest, s.pending = e :: rest ∧
      (e = .reset ∨ ∃ v, e = .write 0x008 .w32 v ∧ v.getLsbD 2 = true))

/-- R113: what raises each error. ILL is newly set only by an admitted CMD write of an illegal word, and
BUSERR only by an access the window does not admit, so no step sets both. That the access stands at
the head of `pending` is the model's form (notes/assumptions/3.md). -/
def Obligations.OneAccessRaisesAtMostOneError : Prop :=
  ∀ s t : State, step s = .next t →
    ((s.ill = false ∧ t.ill = true) → ∃ w rest, s.pending = .write 0x00C .w32 w :: rest ∧
      legal w = false ∧ t.busErr = s.busErr) ∧
    ((s.busErr = false ∧ t.busErr = true) → ∃ off n rest, admitted off n = false ∧
      t.ill = s.ill ∧
      (s.pending = .read off n :: rest ∨ ∃ v, s.pending = .write off n v :: rest))

/-- R114: no error blocks later commands. What a command leaves in the register files does not depend on
STATUS. -/
def Obligations.ErrorsDoNotBlockCommands : Prop :=
  ∀ (i : Instr) (w : Word) (s : State), ∃ t u, exec i s = .next t ∧
    exec i { s with status := w } = .next u ∧ SameFiles t u ∧
    (∀ a b, i = .mcmp a b → u.eq = t.eq) ∧ ((∀ a b, i ≠ .mcmp a b) → u.status = w)

/-- R31 (10_state.md section 4): a command changes no byte of the window but those of its
destinations. -/
def Obligations.CommandsWriteOnlyTheirDestinations : Prop :=
  ∀ (i : Instr) (s t : State), exec i s = .next t →
    (∀ off : Offset, (∀ r, regAt off = some r → writesReg i r = false) →
      windowByte t off = windowByte s off) ∧
    t.ill = s.ill ∧ t.busErr = s.busErr ∧ SameBus s t

/-- R113: while every access is admitted and every command word legal, no step raises an error, so a run
of any length stays free of errors. -/
def Obligations.CleanTrafficNeverRaisesAnError : Prop :=
  ∀ (k : Nat) (s : State), s.errorFree = true → (∀ e ∈ s.pending, e.clean = true) →
    ∃ t, Sys2Proof.core.run k s = .next t ∧ t.errorFree = true ∧ t.pending = s.pending.drop k

/-- R70: the accesses each pseudo-instruction expands to, and that `LDV` and `LDM` load the register
whose elements they list, in storage order. -/
def Obligations.PseudoInstructionsExpand : Prop :=
  (∀ (n : RegNo) (v : Word), programEvents [.pseudo (.lds n v)] =
    [.write (BitVec.ofNat 12 (0x080 + 4 * n.toNat)) .w32 v]) ∧
  (∀ (n : RegNo) (v : Vec), programEvents [.pseudo (.ldv n v)] = (List.finRange 4).map fun j =>
    .write (BitVec.ofNat 12 (0x100 + 16 * n.toNat + 4 * j.val)) .w32 v[j.val]) ∧
  (∀ (n : RegNo) (e : Mat), programEvents [.pseudo (.ldm n e)] = (List.finRange 16).map fun k =>
    .write (BitVec.ofNat 12 (0x200 + 64 * n.toNat + 4 * k.val)) .w32 e[k.val]) ∧
  (∀ n : RegNo, programEvents [.pseudo (.sts n)] =
    [.read (BitVec.ofNat 12 (0x080 + 4 * n.toNat)) .w32]) ∧
  (∀ n : RegNo, programEvents [.pseudo (.stv n)] = (List.finRange 4).map fun j =>
    .read (BitVec.ofNat 12 (0x100 + 16 * n.toNat + 4 * j.val)) .w32) ∧
  (∀ n : RegNo, programEvents [.pseudo (.stm n)] = (List.finRange 16).map fun k =>
    .read (BitVec.ofNat 12 (0x200 + 64 * n.toNat + 4 * k.val)) .w32) ∧
  programEvents [.pseudo .clrerr] = [.write 0x008 .w32 0x00000006] ∧
  (∀ d a : RegNo, programEvents [.pseudo (.mmov d a)] =
    [.write 0x00C .w32 (wordOfFields 0x02 0 d.toNat a.toNat 0)]) ∧
  (∀ (n : RegNo) (v : Vec) (s : State), s.pending = [] →
    Sys2Proof.core.run 4 (s.issueProgram [.pseudo (.ldv n v)]) = .next (s.setV n v)) ∧
  ∀ (n : RegNo) (e : Mat) (s : State), s.pending = [] →
    Sys2Proof.core.run 16 (s.issueProgram [.pseudo (.ldm n e)]) = .next (s.setM n e)
end

