-- ==== Sys2Proof/Laws/Numeric.lean ====
section
/-! SUPPORT. What the numeric primitives and the operand builders can do, each said once. -/

namespace Sys2Proof.Machine

/-- `shiftDown` in one of its three cases (R16). -/
theorem shiftDown_cases (sat : Bool) (acc : Int) :
    (sat = true ∧ 2 ^ 43 ≤ acc ∧ shiftDown sat acc = 0x7FFFFFFF) ∨
    (sat = true ∧ acc < -2 ^ 43 ∧ shiftDown sat acc = 0x80000000) ∨
    ((sat = true → -2 ^ 43 ≤ acc ∧ acc < 2 ^ 43) ∧
      shiftDown sat acc = BitVec.ofInt 32 (acc / 4096)) := by
  have h43 : (0xFFFFF80000000000#64).toInt = -2 ^ 43 := by decide
  have hsh : u32 (acc >>> Config.frac) = BitVec.ofInt 32 (acc / 4096) := by
    simp only [u32, Int.shiftRight_eq_div_pow]; rfl
  unfold shiftDown
  rw [h43, hsh]
  split
  · rename_i h; exact .inl ⟨h.1, by omega, rfl⟩
  · rename_i h
    split
    · rename_i h2; exact .inr (.inl ⟨h2.1, by omega, rfl⟩)
    · rename_i h2; exact .inr (.inr ⟨fun hs => by simp_all; omega, rfl⟩)

/-- The wrapped value is the value itself plus a multiple of 2^64, in the signed 64-bit range (R10). -/
theorem wrap64_spec (v : Int) :
    -2 ^ 63 ≤ wrap64 v ∧ wrap64 v < 2 ^ 63 ∧ wrap64 v % 2 ^ 64 = v % 2 ^ 64 := by
  have h1 := Int.le_bmod (x := v) (m := 2 ^ 64) (by decide)
  have h2 := Int.bmod_lt (x := v) (m := 2 ^ 64) (by decide)
  have h3 := Int.bmod_emod (x := v) (m := 2 ^ 64)
  refine ⟨?_, ?_, ?_⟩ <;> simp only [wrap64, Config.accLen] <;> norm_num at * <;> omega

/-- A value in range is not changed by the wrap (R10). -/
theorem wrap64_of_range {v : Int} (h1 : -2 ^ 63 ≤ v) (h2 : v < 2 ^ 63) : wrap64 v = v := by
  obtain ⟨a, b, c⟩ := wrap64_spec v
  omega

/-- The signed reading of a pattern is in the 32-bit range (R10). -/
theorem s32_range (v : Word) : -2 ^ 31 ≤ s32 v ∧ s32 v < 2 ^ 31 := by
  have h1 := BitVec.le_toInt v
  have h2 := BitVec.toInt_lt (x := v)
  simp only [s32]; omega

/-- The widening of R15 with its distance written out. -/
theorem shiftUp_eq (a : Word) : shiftUp a = s32 a * 4096 := rfl

/-- Element (r, c) of a matrix built from `f` is `f r c` (R12). -/
@[simp] theorem matAt_matOf (f : Fin 4 → Fin 4 → Word) (r c : Fin 4) :
    matAt (matOf f) r c = f r c := by
  have hr : (r.val + 4 * c.val) % 4 = r.val := by omega
  have hc : (r.val + 4 * c.val) / 4 = c.val := by omega
  simp [matAt, matOf, rowOf, colOf, hr, hc]

/-- Two matrices with the same rows and columns are equal (R12). -/
theorem mat_ext {A B : Mat} (h : ∀ r c : Fin 4, matAt A r c = matAt B r c) : A = B := by
  apply Vector.ext
  intro e he
  have := h ⟨e % 4, by omega⟩ ⟨e / 4, by omega⟩
  have h3 : e % 4 + 4 * (e / 4) = e := by omega
  simpa [matAt, h3] using this

/-- Storage element e of a matrix built from `f` is `f row col` (R12). -/
@[simp] theorem matOf_get (f : Fin 4 → Fin 4 → Word) (e : Nat) (h : e < 16) :
    (matOf f)[e] = f ⟨e % 4, by omega⟩ ⟨e / 4, by omega⟩ := by
  simp [matOf, rowOf, colOf]

/-- Lane r of a vector built from `f` is `f r` (R22). -/
@[simp] theorem vecOf_get (f : Fin 4 → Word) (r : Nat) (h : r < 4) : (vecOf f)[r] = f ⟨r, h⟩ := by
  simp [vecOf]

/-- The identity `MIDENT` writes is the matrix a reset leaves, element by element (R83, R33). -/
theorem identityMatrix_eq :
    identityMatrix =
      #v[0x1000, 0, 0, 0,  0, 0x1000, 0, 0,  0, 0, 0x1000, 0,  0, 0, 0, 0x1000] := by decide

end Sys2Proof.Machine
end

