-- ==== Sys2Proof/Laws/State.lean ====
section
/-! SUPPORT. The small lemmas of State: what each field is after each update, what each register reads
after a register is written. No later proof unfolds a record update. -/

namespace Sys2Proof.Machine.State

variable (s : State)

/-! ### setS -/

@[simp] theorem setS_config (i : RegNo) (x : Word) : (s.setS i x).config = s.config := rfl
@[simp] theorem setS_vectors (i : RegNo) (x : Word) : (s.setS i x).vectors = s.vectors := rfl
@[simp] theorem setS_matrices (i : RegNo) (x : Word) : (s.setS i x).matrices = s.matrices := rfl
@[simp] theorem setS_status (i : RegNo) (x : Word) : (s.setS i x).status = s.status := rfl
@[simp] theorem setS_pending (i : RegNo) (x : Word) : (s.setS i x).pending = s.pending := rfl
@[simp] theorem setS_returned (i : RegNo) (x : Word) : (s.setS i x).returned = s.returned := rfl

/-! ### setV -/

@[simp] theorem setV_config (i : RegNo) (x : Vec) : (s.setV i x).config = s.config := rfl
@[simp] theorem setV_scalars (i : RegNo) (x : Vec) : (s.setV i x).scalars = s.scalars := rfl
@[simp] theorem setV_matrices (i : RegNo) (x : Vec) : (s.setV i x).matrices = s.matrices := rfl
@[simp] theorem setV_status (i : RegNo) (x : Vec) : (s.setV i x).status = s.status := rfl
@[simp] theorem setV_pending (i : RegNo) (x : Vec) : (s.setV i x).pending = s.pending := rfl
@[simp] theorem setV_returned (i : RegNo) (x : Vec) : (s.setV i x).returned = s.returned := rfl

/-! ### setM -/

@[simp] theorem setM_config (i : RegNo) (x : Mat) : (s.setM i x).config = s.config := rfl
@[simp] theorem setM_scalars (i : RegNo) (x : Mat) : (s.setM i x).scalars = s.scalars := rfl
@[simp] theorem setM_vectors (i : RegNo) (x : Mat) : (s.setM i x).vectors = s.vectors := rfl
@[simp] theorem setM_status (i : RegNo) (x : Mat) : (s.setM i x).status = s.status := rfl
@[simp] theorem setM_pending (i : RegNo) (x : Mat) : (s.setM i x).pending = s.pending := rfl
@[simp] theorem setM_returned (i : RegNo) (x : Mat) : (s.setM i x).returned = s.returned := rfl

/-! ### setLane -/

@[simp] theorem setLane_config (i : RegNo) (j : Fin 4) (x : Word) : (s.setLane i j x).config = s.config := rfl
@[simp] theorem setLane_scalars (i : RegNo) (j : Fin 4) (x : Word) : (s.setLane i j x).scalars = s.scalars := rfl
@[simp] theorem setLane_matrices (i : RegNo) (j : Fin 4) (x : Word) : (s.setLane i j x).matrices = s.matrices := rfl
@[simp] theorem setLane_status (i : RegNo) (j : Fin 4) (x : Word) : (s.setLane i j x).status = s.status := rfl
@[simp] theorem setLane_pending (i : RegNo) (j : Fin 4) (x : Word) : (s.setLane i j x).pending = s.pending := rfl
@[simp] theorem setLane_returned (i : RegNo) (j : Fin 4) (x : Word) : (s.setLane i j x).returned = s.returned := rfl

/-! ### setElem -/

@[simp] theorem setElem_config (i : RegNo) (e : Fin 16) (x : Word) : (s.setElem i e x).config = s.config := rfl
@[simp] theorem setElem_scalars (i : RegNo) (e : Fin 16) (x : Word) : (s.setElem i e x).scalars = s.scalars := rfl
@[simp] theorem setElem_vectors (i : RegNo) (e : Fin 16) (x : Word) : (s.setElem i e x).vectors = s.vectors := rfl
@[simp] theorem setElem_status (i : RegNo) (e : Fin 16) (x : Word) : (s.setElem i e x).status = s.status := rfl
@[simp] theorem setElem_pending (i : RegNo) (e : Fin 16) (x : Word) : (s.setElem i e x).pending = s.pending := rfl
@[simp] theorem setElem_returned (i : RegNo) (e : Fin 16) (x : Word) : (s.setElem i e x).returned = s.returned := rfl

/-! ### setStatus -/

@[simp] theorem setStatus_config (w : Word) : (s.setStatus w).config = s.config := rfl
@[simp] theorem setStatus_scalars (w : Word) : (s.setStatus w).scalars = s.scalars := rfl
@[simp] theorem setStatus_vectors (w : Word) : (s.setStatus w).vectors = s.vectors := rfl
@[simp] theorem setStatus_matrices (w : Word) : (s.setStatus w).matrices = s.matrices := rfl
@[simp] theorem setStatus_status (w : Word) : (s.setStatus w).status = w := rfl
@[simp] theorem setStatus_pending (w : Word) : (s.setStatus w).pending = s.pending := rfl
@[simp] theorem setStatus_returned (w : Word) : (s.setStatus w).returned = s.returned := rfl

/-! ### setEq -/

@[simp] theorem setEq_config (b : Bool) : (s.setEq b).config = s.config := rfl
@[simp] theorem setEq_scalars (b : Bool) : (s.setEq b).scalars = s.scalars := rfl
@[simp] theorem setEq_vectors (b : Bool) : (s.setEq b).vectors = s.vectors := rfl
@[simp] theorem setEq_matrices (b : Bool) : (s.setEq b).matrices = s.matrices := rfl
@[simp] theorem setEq_status (b : Bool) : (s.setEq b).status = withStatusBit eqBit b s.status := rfl
@[simp] theorem setEq_pending (b : Bool) : (s.setEq b).pending = s.pending := rfl
@[simp] theorem setEq_returned (b : Bool) : (s.setEq b).returned = s.returned := rfl

/-! ### raise -/

@[simp] theorem raise_config (c : ErrorCause) : (s.raise c).config = s.config := rfl
@[simp] theorem raise_scalars (c : ErrorCause) : (s.raise c).scalars = s.scalars := rfl
@[simp] theorem raise_vectors (c : ErrorCause) : (s.raise c).vectors = s.vectors := rfl
@[simp] theorem raise_matrices (c : ErrorCause) : (s.raise c).matrices = s.matrices := rfl
@[simp] theorem raise_status (c : ErrorCause) : (s.raise c).status = withStatusBit c.code true s.status := rfl
@[simp] theorem raise_pending (c : ErrorCause) : (s.raise c).pending = s.pending := rfl
@[simp] theorem raise_returned (c : ErrorCause) : (s.raise c).returned = s.returned := rfl

/-! ### answer -/

@[simp] theorem answer_config (w : Word) : (s.answer w).config = s.config := rfl
@[simp] theorem answer_scalars (w : Word) : (s.answer w).scalars = s.scalars := rfl
@[simp] theorem answer_vectors (w : Word) : (s.answer w).vectors = s.vectors := rfl
@[simp] theorem answer_matrices (w : Word) : (s.answer w).matrices = s.matrices := rfl
@[simp] theorem answer_status (w : Word) : (s.answer w).status = s.status := rfl
@[simp] theorem answer_pending (w : Word) : (s.answer w).pending = s.pending := rfl
@[simp] theorem answer_returned (w : Word) : (s.answer w).returned = s.returned ++ [w] := rfl

/-! ### resetBlock -/

@[simp] theorem resetBlock_config : s.resetBlock.config = s.config := rfl
@[simp] theorem resetBlock_scalars : s.resetBlock.scalars = (State.resetWith s.config).scalars := rfl
@[simp] theorem resetBlock_vectors : s.resetBlock.vectors = (State.resetWith s.config).vectors := rfl
@[simp] theorem resetBlock_matrices : s.resetBlock.matrices = (State.resetWith s.config).matrices := rfl
@[simp] theorem resetBlock_status : s.resetBlock.status = 0 := rfl
@[simp] theorem resetBlock_pending : s.resetBlock.pending = s.pending := rfl
@[simp] theorem resetBlock_returned : s.resetBlock.returned = s.returned := rfl

/-! ### Reading after writing -/

@[simp] theorem getS_setS_self (i : RegNo) (x : Word) : (s.setS i x).getS i = x := by
  simp [getS, setS]

theorem getS_setS_ne {i j : RegNo} (x : Word) (h : j ≠ i) : (s.setS i x).getS j = s.getS j := by
  have h' : i.toNat ≠ j.toNat := fun e => h (BitVec.eq_of_toNat_eq e.symm)
  simp [getS, setS, h']

@[simp] theorem getV_setV_self (i : RegNo) (x : Vec) : (s.setV i x).getV i = x := by
  simp [getV, setV]

theorem getV_setV_ne {i j : RegNo} (x : Vec) (h : j ≠ i) : (s.setV i x).getV j = s.getV j := by
  have h' : i.toNat ≠ j.toNat := fun e => h (BitVec.eq_of_toNat_eq e.symm)
  simp [getV, setV, h']

@[simp] theorem getM_setM_self (i : RegNo) (x : Mat) : (s.setM i x).getM i = x := by
  simp [getM, setM]

theorem getM_setM_ne {i j : RegNo} (x : Mat) (h : j ≠ i) : (s.setM i x).getM j = s.getM j := by
  have h' : i.toNat ≠ j.toNat := fun e => h (BitVec.eq_of_toNat_eq e.symm)
  simp [getM, setM, h']

/-- Writing back what a register holds changes nothing. -/
theorem setS_getS (i : RegNo) : s.setS i (s.getS i) = s := by
  cases s; simp [getS, setS]

theorem setV_getV (i : RegNo) : s.setV i (s.getV i) = s := by
  cases s; simp [getV, setV]

theorem setM_getM (i : RegNo) : s.setM i (s.getM i) = s := by
  cases s; simp [getM, setM]

/-! ### Register files an update leaves alone -/

@[simp] theorem getV_setS (i : RegNo) (x : Word) (j : RegNo) : (s.setS i x).getV j = s.getV j := rfl
@[simp] theorem getM_setS (i : RegNo) (x : Word) (j : RegNo) : (s.setS i x).getM j = s.getM j := rfl
@[simp] theorem getS_setV (i : RegNo) (x : Vec) (j : RegNo) : (s.setV i x).getS j = s.getS j := rfl
@[simp] theorem getM_setV (i : RegNo) (x : Vec) (j : RegNo) : (s.setV i x).getM j = s.getM j := rfl
@[simp] theorem getS_setM (i : RegNo) (x : Mat) (j : RegNo) : (s.setM i x).getS j = s.getS j := rfl
@[simp] theorem getV_setM (i : RegNo) (x : Mat) (j : RegNo) : (s.setM i x).getV j = s.getV j := rfl
@[simp] theorem getS_setLane (i : RegNo) (l : Fin 4) (x : Word) (j : RegNo) : (s.setLane i l x).getS j = s.getS j := rfl
@[simp] theorem getM_setLane (i : RegNo) (l : Fin 4) (x : Word) (j : RegNo) : (s.setLane i l x).getM j = s.getM j := rfl
@[simp] theorem getS_setElem (i : RegNo) (e : Fin 16) (x : Word) (j : RegNo) : (s.setElem i e x).getS j = s.getS j := rfl
@[simp] theorem getV_setElem (i : RegNo) (e : Fin 16) (x : Word) (j : RegNo) : (s.setElem i e x).getV j = s.getV j := rfl
@[simp] theorem getS_setStatus (w : Word) (j : RegNo) : (s.setStatus w).getS j = s.getS j := rfl
@[simp] theorem getV_setStatus (w : Word) (j : RegNo) : (s.setStatus w).getV j = s.getV j := rfl
@[simp] theorem getM_setStatus (w : Word) (j : RegNo) : (s.setStatus w).getM j = s.getM j := rfl
@[simp] theorem getS_setEq (b : Bool) (j : RegNo) : (s.setEq b).getS j = s.getS j := rfl
@[simp] theorem getV_setEq (b : Bool) (j : RegNo) : (s.setEq b).getV j = s.getV j := rfl
@[simp] theorem getM_setEq (b : Bool) (j : RegNo) : (s.setEq b).getM j = s.getM j := rfl
@[simp] theorem getS_raise (c : ErrorCause) (j : RegNo) : (s.raise c).getS j = s.getS j := rfl
@[simp] theorem getV_raise (c : ErrorCause) (j : RegNo) : (s.raise c).getV j = s.getV j := rfl
@[simp] theorem getM_raise (c : ErrorCause) (j : RegNo) : (s.raise c).getM j = s.getM j := rfl
@[simp] theorem getS_answer (w : Word) (j : RegNo) : (s.answer w).getS j = s.getS j := rfl
@[simp] theorem getV_answer (w : Word) (j : RegNo) : (s.answer w).getV j = s.getV j := rfl
@[simp] theorem getM_answer (w : Word) (j : RegNo) : (s.answer w).getM j = s.getM j := rfl

/-- One host write of a lane: that lane, and the three others of its register as they were. -/
theorem getV_setLane_self (i : RegNo) (l : Fin 4) (x : Word) :
    (s.setLane i l x).getV i = (s.getV i).set l.val x := by simp [setLane]

theorem getV_setLane_ne {i j : RegNo} (l : Fin 4) (x : Word) (h : j ≠ i) :
    (s.setLane i l x).getV j = s.getV j := s.getV_setV_ne _ h

/-- One host write of an element: that element, and the fifteen others of its register as they were. -/
theorem getM_setElem_self (i : RegNo) (e : Fin 16) (x : Word) :
    (s.setElem i e x).getM i = (s.getM i).set e.val x := by simp [setElem]

theorem getM_setElem_ne {i j : RegNo} (e : Fin 16) (x : Word) (h : j ≠ i) :
    (s.setElem i e x).getM j = s.getM j := s.getM_setM_ne _ h

/-- Two states with equal fields are equal. -/
theorem ext_fields {s t : State} (hc : s.config = t.config) (hs : s.scalars = t.scalars)
    (hv : s.vectors = t.vectors) (hm : s.matrices = t.matrices) (hst : s.status = t.status)
    (hp : s.pending = t.pending) (hr : s.returned = t.returned) : s = t := by
  cases s; cases t; simp_all

end Sys2Proof.Machine.State
end

