-- ==== Sys2Proof/Laws/Commands.lean ====
section
/-! SUPPORT. What each command's meaning is, as one equation; what a frame says; and how the statements'
notation reads the registers. -/

namespace Sys2Proof.Machine

variable (s : State)

/-! ### The equation of each command -/

theorem exec_nop : exec .nop s = .next s := rfl

theorem exec_mident (d : RegNo) : exec (.mident d) s = .next (s.setM d identityMatrix) := rfl

theorem exec_mcopy (d a : RegNo) : exec (.mcopy d a) s = .next (s.setM d (s.getM a)) := rfl

theorem exec_mcmp (a b : RegNo) :
    exec (.mcmp a b) s = .next (s.setEq (matricesEqual (s.getM a) (s.getM b))) := rfl

theorem exec_mmul (d a : RegNo) : exec (.mmul d a) s =
    .next (s.setM d (matOf (productElement s.config.saturate (s.getM d) (s.getM a)))) := rfl

theorem exec_mvmul4 (d a : RegNo) : exec (.mvmul4 d a) s =
    .next (s.setV d (vecOf fun r => dot s.config.saturate
      (rowTerms3 (s.getM a) (s.getV d) r ++ [mul64 (matAt (s.getM a) r 3) (s.getV d)[3]]))) := rfl

theorem exec_mvmul3 (d a : RegNo) : exec (.mvmul3 d a) s =
    .next (s.setV d (vecOf fun r =>
      if r.val < 3 then dot s.config.saturate (rowTerms3 (s.getM a) (s.getV d) r)
      else (s.getV d)[3])) := rfl

theorem exec_mscale (d a : RegNo) : exec (.mscale d a) s =
    .next (s.setM d (matOf fun r c =>
      if c.val < 3 then shiftDown s.config.saturate (mul64 (matAt (s.getM d) r c) (s.getV a)[c.val])
      else matAt (s.getM d) r c)) := rfl

theorem exec_mtrans (d a : RegNo) : exec (.mtrans d a) s =
    .next (s.setM d (matOf fun r c =>
      if c.val = 3 then dot s.config.saturate
        (rowTerms3 (s.getM d) (s.getV a) r ++ [shiftUp (matAt (s.getM d) r 3)])
      else matAt (s.getM d) r c)) := rfl

theorem exec_mgetidx (d a b : RegNo) (idx : ElemIdx) : exec (.mgetidx d a b idx) s =
    .next (s.setS d (productElement s.config.saturate (s.getM a) (s.getM b)
      (rowOf (indexOf idx)) (colOf (indexOf idx)))) := rfl

theorem exec_vdot4 (d a b : RegNo) : exec (.vdot4 d a b) s =
    .next (s.setS d (dot s.config.saturate
      [mul64 (s.getV a)[0] (s.getV b)[0], mul64 (s.getV a)[1] (s.getV b)[1],
        mul64 (s.getV a)[2] (s.getV b)[2], mul64 (s.getV a)[3] (s.getV b)[3]])) := rfl

theorem exec_smul (d a b : RegNo) : exec (.smul d a b) s =
    .next (s.setS d (shiftDown s.config.saturate (mul64 (s.getS a) (s.getS b)))) := rfl

theorem exec_smac (d a b : RegNo) : exec (.smac d a b) s =
    .next (s.setS d (dot s.config.saturate
      [shiftUp (s.getS d), mul64 (s.getS a) (s.getS b)])) := rfl

/-! ### Frames -/

/-- Writing a scalar register leaves everything but that register as it was. -/
theorem sameButScalar_setS (d : RegNo) (x : Word) : SameButScalar d s (s.setS d x) :=
  ⟨fun _ h => s.getS_setS_ne x h, fun _ => rfl, fun _ => rfl, rfl, rfl, rfl, rfl⟩

/-- Writing a vector register leaves everything but that register as it was. -/
theorem sameButVector_setV (d : RegNo) (x : Vec) : SameButVector d s (s.setV d x) :=
  ⟨fun _ => rfl, fun _ h => s.getV_setV_ne x h, fun _ => rfl, rfl, rfl, rfl, rfl⟩

/-- Writing a matrix register leaves everything but that register as it was. -/
theorem sameButMatrix_setM (d : RegNo) (x : Mat) : SameButMatrix d s (s.setM d x) :=
  ⟨fun _ => rfl, fun _ => rfl, fun _ h => s.getM_setM_ne x h, rfl, rfl, rfl, rfl⟩

/-! ### What a command can write -/

/-- Everything a command can do (R31): nothing; EQ; or one register of one file, of which it leaves
every lane and element that is not among its destinations as it was. -/
theorem exec_inversion {i : Instr} {s t : State} (h : exec i s = .next t) :
    (i = .nop ∧ t = s) ∨
    (∃ a b, i = .mcmp a b ∧ t = s.setEq (matricesEqual (s.getM a) (s.getM b))) ∨
    (∃ d x, t = s.setS d x ∧ writesReg i (.scalar d) = true) ∨
    (∃ d x, t = s.setV d x ∧
      ∀ j : Fin 4, writesReg i (.lane d j) = false → x[j.val] = (s.getV d)[j.val]) ∨
    ∃ d x, t = s.setM d x ∧
      ∀ e : Fin 16, writesReg i (.element d e) = false → x[e.val] = (s.getM d)[e.val] := by
  have at_self : ∀ (A : Mat) (e : Fin 16),
      matAt A ⟨e.val % 4, by omega⟩ ⟨e.val / 4, by omega⟩ = A[e.val] := fun A e => by
    have h3 : e.val % 4 + 4 * (e.val / 4) = e.val := by omega
    simp [matAt, h3]
  cases i with
  | nop => exact .inl ⟨rfl, by cases h; rfl⟩
  | mcmp a b => exact .inr (.inl ⟨a, b, rfl, by cases h; rfl⟩)
  | mgetidx d | vdot4 d | smul d | smac d =>
    exact .inr (.inr (.inl ⟨d, _, by cases h; rfl, by simp [writesReg]⟩))
  | mvmul4 d =>
    exact .inr (.inr (.inr (.inl ⟨d, _, by cases h; rfl, fun j hj => by simp [writesReg] at hj⟩)))
  | mvmul3 d =>
    refine .inr (.inr (.inr (.inl ⟨d, _, by cases h; rfl, fun j hj => ?_⟩)))
    have h3 : j.val = 3 := by simp [writesReg] at hj; omega
    simp [h3]
  | mident d | mcopy d | mmul d =>
    exact .inr (.inr (.inr (.inr ⟨d, _, by cases h; rfl, fun e he => by simp [writesReg] at he⟩)))
  | mscale d =>
    refine .inr (.inr (.inr (.inr ⟨d, _, by cases h; rfl, fun e he => ?_⟩)))
    have h3 : ¬ e.val / 4 < 3 := by simp [writesReg] at he; omega
    simp [h3, at_self]
  | mtrans d =>
    refine .inr (.inr (.inr (.inr ⟨d, _, by cases h; rfl, fun e he => ?_⟩)))
    have h3 : ¬ e.val / 4 = 3 := by simp [writesReg] at he; omega
    simp [h3, at_self]

/-! ### The statements' notation -/

/-- An element written as a number, where the number is a storage index. -/
theorem elemInt_eq (A : Mat) (e : Nat) (h : e < 16) : elemInt A e = s32 A[e] := by
  simp [elemInt, h, s32]

/-- A lane written as a number, where the number is a lane. -/
theorem laneInt_eq (v : Vec) (j : Nat) (h : j < 4) : laneInt v j = s32 v[j] := by
  simp [laneInt, h, s32]

/-- `A(r, c)` is element `r + 4*c` (R12). -/
theorem s32_matAt (A : Mat) (r c : Fin 4) : s32 (matAt A r c) = elemInt A (r.val + 4 * c.val) := by
  rw [elemInt_eq _ _ (by omega)]; rfl

/-- One element of a product, over the sum the statements write (R90, R100). -/
theorem productElement_eq (sat : Bool) (A B : Mat) (r c : Fin 4) :
    productElement sat A B r c = shiftDown sat (productSum A B r.val c.val) := by
  simp only [productElement, dot, acc64, productSum, mul64, s32_matAt, List.sum_cons, List.sum_nil,
    Fin.val_zero, Fin.val_one, Fin.val_two, Int.add_zero, Int.add_assoc]
  rfl

end Sys2Proof.Machine
end

