-- ==== Sys2Proof/Laws/Decode.lean ====
section
/-! SUPPORT. What the field layout, the opcode map and the checks of the decoder do, each said once. -/

namespace Sys2Proof

/-- Reading the fields of the word made of some fields gives them back (R61). -/
theorem CommandFields.ofWord_toWord (f : CommandFields) : CommandFields.ofWord f.toWord = f := by
  obtain ⟨op, z0, idx, z1, z2, d, z3, a, z4, b⟩ := f
  simp only [CommandFields.ofWord, CommandFields.toWord, CommandFields.mk.injEq]
  refine ⟨?_, ?_, ?_, ?_, ?_, ?_, ?_, ?_, ?_, ?_⟩ <;>
    (ext i hi; simp only [BitVec.getElem_extractLsb', BitVec.getLsbD_append]; grind)

/-- A word is made of the fields it has (R61). -/
theorem CommandFields.toWord_ofWord (w : Word) : (CommandFields.ofWord w).toWord = w := by
  apply BitVec.eq_of_getLsbD_eq
  intro i hi
  simp only [CommandFields.ofWord, CommandFields.toWord, BitVec.getLsbD_append,
    BitVec.getLsbD_extractLsb']
  interval_cases i <;> simp

/-- The opcode map finds a row by its op (R64). -/
@[simp] theorem Mnemonic.ofOp_op (m : Mnemonic) : Mnemonic.ofOp m.op = some m := by
  cases m <;> decide

/-- The opcode map finds a row only by its op (R64). -/
theorem Mnemonic.op_of_ofOp {op : BitVec 8} {m : Mnemonic} (h : Mnemonic.ofOp op = some m) :
    m.op = op := by
  have := List.find?_some h
  simpa using this

/-- The fields of a command have its row's op, zero reserved bits and zero unused fields (R61, R62). -/
theorem Instr.fields_spec (i : Instr) :
    i.fields.op = i.mnemonic.op ∧ i.fields.reservedZero = true ∧
      i.fields.unusedZero i.mnemonic.format = true ∧ Instr.ofFields i.mnemonic i.fields = i := by
  cases i <;> exact ⟨rfl, rfl, rfl, rfl⟩

/-- The decoder accepts fields in one case only (R66). -/
theorem CommandFields.decode_ok {f : CommandFields} {i : Instr} (h : f.decode = .ok i) :
    ∃ m, Mnemonic.ofOp f.op = some m ∧ f.reservedZero = true ∧ f.unusedZero m.format = true ∧
      i = Instr.ofFields m f := by
  unfold CommandFields.decode at h
  split at h
  · cases h
  · rename_i m hm
    split at h
    · split at h
      · exact ⟨m, hm, ‹_›, ‹_›, by cases h; rfl⟩
      · cases h
    · cases h

/-- The row a decoded command belongs to is the row it was built from (R64). -/
@[simp] theorem Instr.mnemonic_ofFields (m : Mnemonic) (f : CommandFields) :
    (Instr.ofFields m f).mnemonic = m := by cases m <;> rfl

/-- A register number below 8 and an index below 16 pass the checks of R63. -/
theorem instr_wellFormed (i : Instr) : i.wellFormed = true := by
  have h3 : ∀ r : RegNo, ¬ 8 ≤ r.toNat := fun r => by have := r.isLt; omega
  have h4 : ∀ k : ElemIdx, ¬ 16 ≤ k.toNat := fun k => by have := k.isLt; omega
  cases i <;>
    simp [Instr.wellFormed, Instr.asm, AsmCommand.wellFormed, AsmCommand.check, Mnemonic.operands,
      checkOperands, AsmOperand.check, h3, h4]

end Sys2Proof
end

