-- ==== Sys2Proof/Laws/PerInstr.lean ====
section
/-! SUPPORT. The family of facts made per instruction: every command's word is in its row of the match
and mask table (R65). -/

namespace Sys2Proof.Laws.EncodesToItsRow

/-- The word of a command matches its row of the match and mask table (R61, R65). -/
def Statement (i : Instr) : Prop := i.mnemonic.matchesWord (encode i) = true

/-- A set of fields meets a row's match and mask when its op is the row's, its reserved fields are 0 and
each field it uses is one the mask leaves free: the shared step of every case (R61, R65). -/
theorem of_fields (i : Instr)
    (h : ∀ k < 32, ((i.fields.toWord).getLsbD k && i.mnemonic.maskWord.getLsbD k) =
      i.mnemonic.matchWord.getLsbD k) : Statement i := by
  simp only [Statement, Mnemonic.matchesWord, beq_iff_eq, encode]
  apply BitVec.eq_of_getLsbD_eq
  intro k hk
  simpa using h k hk

theorem nop : Statement .nop := by unfold Statement; decide

theorem mident (d : RegNo) : Statement (.mident d) := by
  refine of_fields _ fun k hk => ?_
  simp only [Instr.fields, CommandFields.toWord, BitVec.getLsbD_append]
  interval_cases k <;> simp [Mnemonic.op, Instr.mnemonic, Mnemonic.maskWord, Mnemonic.matchWord]

theorem mcopy (d a : RegNo) : Statement (.mcopy d a) := by
  refine of_fields _ fun k hk => ?_
  simp only [Instr.fields, CommandFields.toWord, BitVec.getLsbD_append]
  interval_cases k <;> simp [Mnemonic.op, Instr.mnemonic, Mnemonic.maskWord, Mnemonic.matchWord]

theorem mcmp (a b : RegNo) : Statement (.mcmp a b) := by
  refine of_fields _ fun k hk => ?_
  simp only [Instr.fields, CommandFields.toWord, BitVec.getLsbD_append]
  interval_cases k <;> simp [Mnemonic.op, Instr.mnemonic, Mnemonic.maskWord, Mnemonic.matchWord]

theorem mmul (d a : RegNo) : Statement (.mmul d a) := by
  refine of_fields _ fun k hk => ?_
  simp only [Instr.fields, CommandFields.toWord, BitVec.getLsbD_append]
  interval_cases k <;> simp [Mnemonic.op, Instr.mnemonic, Mnemonic.maskWord, Mnemonic.matchWord]

theorem mvmul4 (d a : RegNo) : Statement (.mvmul4 d a) := by
  refine of_fields _ fun k hk => ?_
  simp only [Instr.fields, CommandFields.toWord, BitVec.getLsbD_append]
  interval_cases k <;> simp [Mnemonic.op, Instr.mnemonic, Mnemonic.maskWord, Mnemonic.matchWord]

theorem mvmul3 (d a : RegNo) : Statement (.mvmul3 d a) := by
  refine of_fields _ fun k hk => ?_
  simp only [Instr.fields, CommandFields.toWord, BitVec.getLsbD_append]
  interval_cases k <;> simp [Mnemonic.op, Instr.mnemonic, Mnemonic.maskWord, Mnemonic.matchWord]

theorem mscale (d a : RegNo) : Statement (.mscale d a) := by
  refine of_fields _ fun k hk => ?_
  simp only [Instr.fields, CommandFields.toWord, BitVec.getLsbD_append]
  interval_cases k <;> simp [Mnemonic.op, Instr.mnemonic, Mnemonic.maskWord, Mnemonic.matchWord]

theorem mtrans (d a : RegNo) : Statement (.mtrans d a) := by
  refine of_fields _ fun k hk => ?_
  simp only [Instr.fields, CommandFields.toWord, BitVec.getLsbD_append]
  interval_cases k <;> simp [Mnemonic.op, Instr.mnemonic, Mnemonic.maskWord, Mnemonic.matchWord]

theorem mgetidx (d a b : RegNo) (idx : ElemIdx) : Statement (.mgetidx d a b idx) := by
  refine of_fields _ fun k hk => ?_
  simp only [Instr.fields, CommandFields.toWord, BitVec.getLsbD_append]
  interval_cases k <;> simp [Mnemonic.op, Instr.mnemonic, Mnemonic.maskWord, Mnemonic.matchWord]

theorem vdot4 (d a b : RegNo) : Statement (.vdot4 d a b) := by
  refine of_fields _ fun k hk => ?_
  simp only [Instr.fields, CommandFields.toWord, BitVec.getLsbD_append]
  interval_cases k <;> simp [Mnemonic.op, Instr.mnemonic, Mnemonic.maskWord, Mnemonic.matchWord]

theorem smul (d a b : RegNo) : Statement (.smul d a b) := by
  refine of_fields _ fun k hk => ?_
  simp only [Instr.fields, CommandFields.toWord, BitVec.getLsbD_append]
  interval_cases k <;> simp [Mnemonic.op, Instr.mnemonic, Mnemonic.maskWord, Mnemonic.matchWord]

theorem smac (d a b : RegNo) : Statement (.smac d a b) := by
  refine of_fields _ fun k hk => ?_
  simp only [Instr.fields, CommandFields.toWord, BitVec.getLsbD_append]
  interval_cases k <;> simp [Mnemonic.op, Instr.mnemonic, Mnemonic.maskWord, Mnemonic.matchWord]

end Sys2Proof.Laws.EncodesToItsRow
end

