-- ==== Sys2Proof/Laws/Window.lean ====
section
/-! SUPPORT. What a host access, a bus event and a step can do, each said once. -/

namespace Sys2Proof.Machine

/-- A read does one of two things (R45): the access is not admitted, or it reads a register. -/
theorem memRead_cases (off : Offset) (n : AccessWidth) (s : State) :
    (admittedReg off n = none ∧ memRead off n s = (0, s.raise .busError)) ∨
    ∃ r, admittedReg off n = some r ∧ memRead off n s = (readReg s r, s) := by
  unfold memRead
  cases h : admittedReg off n with
  | none => exact .inl ⟨rfl, rfl⟩
  | some r => exact .inr ⟨r, rfl, rfl⟩

/-- A write that answers next t does one of these (R45). -/
theorem memWrite_cases {off : Offset} {n : AccessWidth} {v : Word} {s t : State}
    (h : memWrite off n v s = .next t) :
    (admittedReg off n = none ∧ t = s.raise .busError) ∨
    ((admittedReg off n = some .id ∨ admittedReg off n = some .cfg) ∧ t = s) ∨
    (admittedReg off n = some .status ∧ t = s.setStatus (writeOneToClear s.status v)) ∨
    (admittedReg off n = some .cmd ∧ execute v s = .next t) ∨
    (∃ i, admittedReg off n = some (.scalar i) ∧ t = s.setS i v) ∨
    (∃ i j, admittedReg off n = some (.lane i j) ∧ t = s.setLane i j v) ∨
    ∃ i e, admittedReg off n = some (.element i e) ∧ t = s.setElem i e v := by
  unfold memWrite at h
  split at h <;> simp_all [eq_comm]

/-- A CMD write that answers next t does one of two things (R31). -/
theorem execute_cases {w : Word} {s t : State} (h : execute w s = .next t) :
    (∃ i, decode w = .ok i ∧ exec i s = .next t) ∨
    ∃ e, decode w = .error e ∧ t = s.raise .illegalCommand := by
  unfold execute at h
  split at h
  · exact .inl ⟨_, ‹_›, h⟩
  · exact .inr ⟨_, ‹_›, by cases h; rfl⟩


end Sys2Proof.Machine
end

