-- ==== Sys2Proof/Laws/Step.lean ====
section
/-! SUPPORT. What a step can do to STATUS, to the parameter and to the bus, said once. -/

namespace Sys2Proof.Machine

/-- The write-1-to-clear rule as one mask (R26). -/
theorem writeOneToClear_eq (status v : Word) :
    writeOneToClear status v = status &&& ~~~(v &&& 0x00000006) := by
  apply BitVec.eq_of_getLsbD_eq
  intro i hi
  simp only [writeOneToClear, withStatusBit, ErrorCause.code]
  by_cases h1 : v.getLsbD 1 <;> by_cases h2 : v.getLsbD 2 <;> simp only [h1, h2] <;>
    (interval_cases i <;> simp_all)

/-- An access reaches a register only if it is admitted and the register is at its offset (R42). -/
theorem admittedReg_some {off : Offset} {n : AccessWidth} {r : WindowReg}
    (h : admittedReg off n = some r) :
    admitted off n = true ∧ regAt off = some r ∧ n = .w32 ∧ off.toNat % 4 = 0 := by
  have w32 : ∀ n : AccessWidth, n.bytes = 4 → n = .w32 := by
    intro n; cases n <;> simp [AccessWidth.bytes]
  unfold admittedReg at h
  split at h
  · rename_i ha
    refine ⟨ha, h, ?_⟩
    simp only [admitted, Bool.and_eq_true, beq_iff_eq] at ha
    exact ⟨w32 n ha.1.1, ha.1.2⟩
  · cases h

/-- An access reaches no register only if it is not admitted (R42). -/
theorem admittedReg_none {off : Offset} {n : AccessWidth} (h : admittedReg off n = none) :
    admitted off n = false := by
  unfold admittedReg at h
  split at h
  · rename_i ha; simp [admitted, mapped, h] at ha
  · simp_all

/-- The one offset at which an access reaches CMD is 0x00C (R41). -/
theorem admittedReg_cmd {off : Offset} {n : AccessWidth} (h : admittedReg off n = some .cmd) :
    off = 0x00C ∧ n = .w32 := by
  obtain ⟨-, hr, hn, h4⟩ := admittedReg_some h
  refine ⟨?_, hn⟩
  clear h hn
  revert off
  decide

/-- The one offset at which an access reaches STATUS is 0x008 (R41). -/
theorem admittedReg_status {off : Offset} {n : AccessWidth}
    (h : admittedReg off n = some .status) : off = 0x008 ∧ n = .w32 := by
  obtain ⟨-, hr, hn, h4⟩ := admittedReg_some h
  refine ⟨?_, hn⟩
  clear h hn
  revert off
  decide

/-- What one step does to STATUS, by what it performs: nothing to perform; an access or command that
leaves STATUS alone; a reset; a non-admitted access; an illegal command; a host write of STATUS; a
compare. The parameter never changes, and one event leaves the bus (R26, R46). -/
theorem step_inversion {s t : State} (h : step s = .next t) :
    (s.pending = [] ∧ t = s) ∨
    ∃ e rest, s.pending = e :: rest ∧ t.pending = rest ∧ t.config = s.config ∧
      ((t.status = s.status ∧ ((∃ off n, e = .read off n ∧ admitted off n = true) ∨
          ∃ off n v, e = .write off n v ∧ admitted off n = true)) ∨
        (e = .reset ∧ t.status = 0) ∨
        (t.status = s.status ||| 4 ∧
          ∃ off n, admitted off n = false ∧ (e = .read off n ∨ ∃ v, e = .write off n v)) ∨
        (∃ w, t.status = s.status ||| 2 ∧ e = .write 0x00C .w32 w ∧ ∃ x, decode w = .error x) ∨
        (∃ v, t.status = writeOneToClear s.status v ∧ e = .write 0x008 .w32 v) ∨
        ∃ w a b q, t.status = withStatusBit eqBit q s.status ∧ e = .write 0x00C .w32 w ∧
          decode w = .ok (.mcmp a b)) := by
  unfold step at h
  split at h
  · exact .inl ⟨‹_›, by cases h; rfl⟩
  rename_i e rest hp
  refine .inr ⟨e, rest, hp, ?_⟩
  cases e with
  | reset => cases h; exact ⟨rfl, rfl, .inr (.inl ⟨rfl, rfl⟩)⟩
  | read off n =>
    cases h
    rcases memRead_cases off n { s with pending := rest } with ⟨a, b⟩ | ⟨r, a, b⟩ <;> rw [b]
    · exact ⟨rfl, rfl, .inr (.inr (.inl ⟨rfl, off, n, admittedReg_none a, .inl rfl⟩))⟩
    · exact ⟨rfl, rfl, .inl ⟨rfl, .inl ⟨off, n, rfl, (admittedReg_some a).1⟩⟩⟩
  | write off n v =>
    have plain {r} (a : admittedReg off n = some r) : (∃ off' n', BusEvent.write off n v =
        .read off' n' ∧ admitted off' n' = true) ∨ ∃ off' n' v', BusEvent.write off n v =
        .write off' n' v' ∧ admitted off' n' = true :=
      .inr ⟨off, n, v, rfl, (admittedReg_some a).1⟩
    rcases memWrite_cases h with ⟨a, rfl⟩ | ⟨a, rfl⟩ | ⟨a, rfl⟩ | ⟨a, b⟩ | ⟨_, a, rfl⟩ |
      ⟨_, _, a, rfl⟩ | ⟨_, _, a, rfl⟩
    · exact ⟨rfl, rfl, .inr (.inr (.inl ⟨rfl, off, n, admittedReg_none a, .inr ⟨v, rfl⟩⟩))⟩
    · exact ⟨rfl, rfl, .inl ⟨rfl, a.elim plain plain⟩⟩
    · obtain ⟨rfl, rfl⟩ := admittedReg_status a
      exact ⟨rfl, rfl, .inr (.inr (.inr (.inr (.inl ⟨v, rfl, rfl⟩))))⟩
    · have hp' := plain a
      obtain ⟨rfl, rfl⟩ := admittedReg_cmd a
      rcases execute_cases b with ⟨i, hd, he⟩ | ⟨x, hd, rfl⟩
      · rcases exec_inversion he with ⟨_, rfl⟩ | ⟨a', b', rfl, rfl⟩ | ⟨_, _, rfl, _⟩ |
          ⟨_, _, rfl, _⟩ | ⟨_, _, rfl, _⟩
        · exact ⟨rfl, rfl, .inl ⟨rfl, hp'⟩⟩
        · exact ⟨rfl, rfl, .inr (.inr (.inr (.inr (.inr ⟨v, a', b', _, rfl, rfl, hd⟩))))⟩
        all_goals exact ⟨rfl, rfl, .inl ⟨rfl, hp'⟩⟩
      · exact ⟨rfl, rfl, .inr (.inr (.inr (.inl ⟨v, rfl, rfl, x, hd⟩)))⟩
    all_goals exact ⟨rfl, rfl, .inl ⟨rfl, plain a⟩⟩

end Sys2Proof.Machine
end

