-- ==== Sys2Proof/Laws/Text.lean ====
section
/-! SUPPORT. What the assembler reads from the text it writes of one operand (R68). -/

namespace Sys2Proof.Laws

open Sys2Proof.Machine

/-- The decimal text of an index reads as the index. -/
theorem decimalValue_index :
    ∀ k : ElemIdx, decimalValue (Nat.toDigits 10 k.toNat) = some k.toNat := by decide

/-- The text of a register operand reads as that operand. -/
theorem parseOperand_reg (f : RegFile) :
    ∀ n : RegNo, parseOperand (operandText (.reg f n.toNat)) = some (.reg f n.toNat) := by
  cases f <;> decide

/-- The text of an index operand reads as that operand. -/
theorem parseOperand_imm (k : ElemIdx) :
    parseOperand (operandText (.imm k.toNat)) = some (.imm k.toNat) := by
  simp [operandText, parseOperand, decimalValue_index]

end Sys2Proof.Laws
end

