-- ==== Sys2Proof/Tests/Slice0.lean ====
section
/-! SUPPORT. The model's own tests, each expected value taken from spec/95_test_vectors.md or from the
rule named, and, for each statement of the certificate that has hypotheses, a concrete state and
operands that meet them. -/

namespace Sys2Proof.Tests

open Sys2Proof.Machine

/-! ## Helpers -/

/-- A field of the next state, `none` after a stop. -/
def after {α : Type} (o : Host.Outcome State Fault Refusal) (f : State → α) : Option α :=
  match o with
  | .next t => some (f t)
  | .fault _ => none
  | .refused _ => none

/-- The reset state of the saturating configuration. -/
def saturating : State := State.resetWith { saturate := true }

/-- `s` with S0, S1, S2 set. -/
def withS (s : State) (x y z : Word) : State := ((s.setS 0 x).setS 1 y).setS 2 z

/-- `A[e] = 0x1000*(e+1)` (R94). -/
def matA : Mat := Vector.ofFn fun e => BitVec.ofNat 32 (0x1000 * (e.val + 1))

/-- The matrix B of R94. -/
def matB : Mat :=
  #v[0x800, 0, 0, 0,  0, 0x2000, 0, 0,  0, 0, 0xFFFFF000, 0,  0x1000, 0x2000, 0x3000, 0x1000]

/-- The identity translated by (1, 2, 3) (R91). -/
def matT : Mat :=
  #v[0x1000, 0, 0, 0,  0, 0x1000, 0, 0,  0, 0, 0x1000, 0,  0x1000, 0x2000, 0x3000, 0x1000]

/-! ## Decoding: one word of every command, written out from R61 and R64 (95_test_vectors.md 2.2) -/

theorem test_decode_nop : decode 0x00000000 = .ok .nop := by decide
theorem test_decode_mident : decode 0x01000300 = .ok (.mident 3) := by decide
theorem test_decode_mcopy : decode 0x02000100 = .ok (.mcopy 1 0) := by decide
theorem test_decode_mcmp : decode 0x03000001 = .ok (.mcmp 0 1) := by decide
theorem test_decode_mmul : decode 0x10000010 = .ok (.mmul 0 1) := by decide
theorem test_decode_mvmul4 : decode 0x11000200 = .ok (.mvmul4 2 0) := by decide
theorem test_decode_mvmul3 : decode 0x12000320 = .ok (.mvmul3 3 2) := by decide
theorem test_decode_mscale : decode 0x13000410 = .ok (.mscale 4 1) := by decide
theorem test_decode_mtrans : decode 0x14000410 = .ok (.mtrans 4 1) := by decide
theorem test_decode_mgetidx : decode 0x15060201 = .ok (.mgetidx 2 0 1 6) := by decide
theorem test_decode_vdot4 : decode 0x16000012 = .ok (.vdot4 0 1 2) := by decide
theorem test_decode_smul : decode 0x20000012 = .ok (.smul 0 1 2) := by decide
theorem test_decode_smac : decode 0x21000345 = .ok (.smac 3 4 5) := by decide

theorem test_illegal_unused_field : decode 0x00000001 = .error .unusedField := by decide
theorem test_illegal_z2 : decode 0x01000800 = .error .reservedBits := by decide
theorem test_illegal_z0 : decode 0x15F00000 = .error .reservedBits := by decide
theorem test_illegal_op : decode 0x04000000 = .error .reservedOpcode := by decide

/-! ## Well-formedness: an ill-formed line for each check (R68, R63) -/

theorem test_check_count : (AsmCommand.mk .mident []).check = some .operandCount := by decide
theorem test_check_too_many : (AsmCommand.mk .nop [.imm 0]).check = some .operandCount := by decide
theorem test_check_file :
    (AsmCommand.mk .mvmul4 [.reg .matrix 2, .reg .matrix 0]).check = some .operandKind := by decide
theorem test_check_imm_for_reg :
    (AsmCommand.mk .mident [.imm 3]).check = some .operandKind := by decide
theorem test_check_reg_for_imm :
    (AsmCommand.mk .mgetidx [.reg .scalar 2, .reg .matrix 0, .reg .matrix 1, .reg .scalar 6]).check =
      some .operandKind := by decide
theorem test_check_register_number :
    (AsmCommand.mk .mident [.reg .matrix 8]).check = some .registerNumber := by decide
theorem test_check_index_range :
    (AsmCommand.mk .mgetidx [.reg .scalar 2, .reg .matrix 0, .reg .matrix 1, .imm 16]).check =
      some .indexRange := by decide
theorem test_check_accepts :
    (AsmCommand.mk .mgetidx [.reg .scalar 2, .reg .matrix 0, .reg .matrix 1, .imm 15]).wellFormed =
      true := by decide

/-! ## Text (R68 to R70) -/

theorem test_text_mgetidx :
    assembleLine ['M', 'G', 'E', 'T', 'I', 'D', 'X', ' ', 'S', '2', ',', ' ', 'M', '0', ',', ' ',
      'M', '1', ',', ' ', '#', '0', 'x', 'F'] = .ok (.mgetidx 2 0 1 15) := by decide
/-- Zeros in front of a number (log entry 7). -/
theorem test_text_leading_zeros :
    assembleLine ['M', 'I', 'D', 'E', 'N', 'T', ' ', 'M', '0', '3'] = .ok (.mident 3) := by decide
theorem test_digit_values :
    (digitValue 16 'F', digitValue 16 'a', digitValue 10 '9', digitValue 10 'A', digitValue 16 'G') =
      (some 15, some 10, some 9, none, none) := by decide
theorem test_text_unknown : assembleLine ['A', 'D', 'D'] = .error .unknownMnemonic := by decide
theorem test_text_bad_operand :
    assembleLine ['M', 'I', 'D', 'E', 'N', 'T', ' ', 'X', '3'] = .error .badOperand := by decide
theorem test_text_rd :
    parseHostLine ['R', 'D', ' ', '0', 'x', '0', '0', '8', ' ', '-', '>', ' ', '0', 'x', '6'] =
      some (.plain (.rd 0x008 (some 6))) := by decide
/-- Program P3 of 95_test_vectors.md states a value for each mode; R69 shows one (log entry 7). -/
theorem test_text_rd_two_values :
    parseRead [' ', '0', 'x', '8', ' ', '-', '>', ' ', '0', 'x', '6', ' ', '/', ' ', '0', 'x', '7'] =
      none := by decide
theorem test_text_lds :
    parseHostLine ['L', 'D', 'S', ' ', 'S', '4', ',', ' ', '0', 'x', '1', 'F'] =
      some (.pseudo (.lds 4 0x1F)) := by decide

/-! ## Primitives (95_test_vectors.md 2.1) -/

theorem test_shiftDown_floor : shiftDown false (-1) = 0xFFFFFFFF := by decide
theorem test_shiftDown_low_bits : shiftDown true 0xFFF = 0 := by decide
theorem test_shiftDown_above_wrap : shiftDown false (2 ^ 43) = 0x80000000 := by decide
theorem test_shiftDown_above_sat : shiftDown true (2 ^ 43) = 0x7FFFFFFF := by decide
theorem test_shiftDown_below_wrap : shiftDown false (-2 ^ 43 - 1) = 0x7FFFFFFF := by decide
theorem test_shiftDown_below_sat : shiftDown true (-2 ^ 43 - 1) = 0x80000000 := by decide

/-! ## Commands, one step each (95_test_vectors.md 2.4 to 2.8) -/

/-- R80: no register changes. -/
theorem test_nop : after (exec .nop (withS .reset 1 2 3)) (fun t => (t.getS 0, t.status)) =
    some (1, 0) := by decide

theorem test_smul_wrap :
    after (exec (.smul 0 1 2) (withS .reset 0 0x80000000 0x7FFFFFFF)) (·.getS 0) =
      some 0x00080000 := by decide
theorem test_smul_sat :
    after (exec (.smul 0 1 2) (withS saturating 0 0x80000000 0x7FFFFFFF)) (·.getS 0) =
      some 0x80000000 := by decide

theorem test_smac_aliased :
    after (exec (.smac 1 1 1) (withS .reset 0 0x2000 0)) (·.getS 1) = some 0x00006000 := by decide
theorem test_smac_sat :
    after (exec (.smac 0 1 2) (withS saturating 0x40000000 0x00200000 0x00200000)) (·.getS 0) =
      some 0x7FFFFFFF := by decide

theorem test_mident :
    after (exec (.mident 3) (State.reset.setM 3 matA)) (·.getM 3) = some resetMatrix := by decide

theorem test_mcopy :
    after (exec (.mcopy 1 0) (State.reset.setM 0 matA)) (fun t => (t.getM 1 == matA, t.getM 0 == matA)) =
      some (true, true) := by decide

/-- 2.5: M1 differs from M0 in element 0 only; an old EQ is cleared, ILL and BUSERR stay. -/
theorem test_mcmp_unequal :
    after (exec (.mcmp 0 1) ((State.reset.setElem 1 0 0x1001).setStatus 7)) (·.status) =
      some 6 := by decide
theorem test_mcmp_equal : after (exec (.mcmp 0 1) .reset) (·.status) = some 1 := by decide

theorem test_mmul :
    after (exec (.mmul 0 1) ((State.reset.setM 0 matA).setM 1 matB)) (·.getM 0) =
      some #v[0x800, 0x1000, 0x1800, 0x2000, 0xA000, 0xC000, 0xE000, 0x10000, 0xFFFF7000,
        0xFFFF6000, 0xFFFF5000, 0xFFFF4000, 0x33000, 0x3A000, 0x41000, 0x48000] := by decide
/-- 2.6: two products of 2^62 wrap to -2^63 before the clamp sees the sum. -/
theorem test_mmul_wraps_before_clamp :
    after (exec (.mmul 0 0) (saturating.setM 0 (Vector.ofFn fun e =>
      if e.val < 8 then 0x80000000 else 0))) (fun t => ((t.getM 0)[0], (t.getM 0)[8])) =
      some (0x80000000, 0) := by decide

theorem test_mvmul4 :
    after (exec (.mvmul4 2 0) ((State.reset.setM 0 matA).setV 2 #v[0x1000, 0x2000, 0x3000, 0x1000]))
      (·.getV 2) = some #v[0x33000, 0x3A000, 0x41000, 0x48000] := by decide

theorem test_mvmul3 :
    after (exec (.mvmul3 2 0)
      ((State.reset.setM 0 matA).setV 2 #v[0x1000, 0x2000, 0x3000, 0xDEADBEEF])) (·.getV 2) =
      some #v[0x26000, 0x2C000, 0x32000, 0xDEADBEEF] := by decide

theorem test_mscale :
    after (exec (.mscale 4 1)
      ((State.reset.setM 4 #v[0x1, 0xFFFFFFFF, 0x7FFFFFFF, 0x80000000, 0x1000, 0x1000, 0x1000,
        0x1000, 0x1000, 0x1000, 0x1000, 0x1000, 0x1000, 0x1000, 0x1000, 0x1000]).setV 1
        #v[0x800, 0x2000, 0, 0xFFFFFFFF])) (·.getM 4) =
      some #v[0x0, 0xFFFFFFFF, 0x3FFFFFFF, 0xC0000000, 0x2000, 0x2000, 0x2000, 0x2000, 0, 0, 0, 0,
        0x1000, 0x1000, 0x1000, 0x1000] := by decide

theorem test_mtrans :
    after (exec (.mtrans 4 1) (State.reset.setV 1 #v[0x1000, 0x2000, 0x3000, 0x55])) (·.getM 4) =
      some matT := by decide
theorem test_mtrans_sat :
    after (exec (.mtrans 4 1) ((saturating.setElem 4 12 0x7FFFF000).setV 1 #v[0x1000, 0, 0, 0]))
      (fun t => (t.getM 4)[12]) = some 0x7FFFFFFF := by decide

/-- R100: index 6 is row 2, column 1; the transposed reading would give 0xFFFF7000 (index 9). -/
theorem test_mgetidx :
    after (exec (.mgetidx 2 0 1 6) ((State.reset.setM 0 matA).setM 1 matB)) (·.getS 2) =
      some 0x0000E000 := by decide

theorem test_vdot4 :
    after (exec (.vdot4 0 1 2) ((State.reset.setV 1 #v[0x1000, 0x2000, 0x3000, 0x4000]).setV 2
      #v[0x5000, 0x6000, 0x7000, 0x8000])) (·.getS 0) = some 0x00046000 := by decide
theorem test_vdot4_sat :
    after (exec (.vdot4 0 1 1) (saturating.setV 1 #v[0x80000000, 0x80000000, 0, 0])) (·.getS 0) =
      some 0x80000000 := by decide

/-! ## Host accesses, one step each (95_test_vectors.md 2.3, 2.9) -/

theorem test_read_id : (memRead 0x000 .w32 .reset).1 = 0x464D4143 := by decide
theorem test_read_cfg :
    ((memRead 0x004 .w32 .reset).1, (memRead 0x004 .w32 saturating).1) =
      (0x0C088800, 0x0C088801) := by decide
theorem test_read_last_element : (memRead 0x3FC .w32 .reset).1 = 0x00001000 := by decide
theorem test_read_reserved :
    after (perform (.read 0x400 .w32) (State.reset.setStatus 2)) (fun t => (t.returned, t.status)) =
      some ([0], 6) := by decide
theorem test_write_misaligned_cmd :
    after (perform (.write 0x00E .w32 0x21000012) (withS .reset 1 2 3))
      (fun t => (t.getS 0, t.status)) = some (1, 4) := by decide
theorem test_write_narrow_cmd :
    after (perform (.write 0x00C .w16 0x21000012) (withS .reset 1 2 3))
      (fun t => (t.getS 0, t.status)) = some (1, 4) := by decide
theorem test_write_status :
    after (perform (.write 0x008 .w32 0x2) (State.reset.setStatus 7)) (·.status) = some 5 := by
  decide
theorem test_write_lane :
    after (perform (.write 0x17C .w32 0xABC) .reset) (·.getV 7) = some #v[0, 0, 0, 0xABC] := by
  decide
theorem test_write_illegal_command :
    after (perform (issue 0x01000800) (State.reset.setM 0 matA))
      (fun t => (t.getM 0 == matA, t.status)) = some (true, 2) := by decide
theorem test_reset_event :
    after (perform .reset (((saturating.setM 5 matA).setS 7 9).setStatus 7))
      (fun t => (t.getM 5 == resetMatrix, t.getS 7, t.status, t.config.saturate)) =
      some (true, 0, 0, true) := by decide
theorem test_fetch_runs_first :
    after (step (State.reset.withFetchWord 32 0x03000001)) (fun t => (t.status, t.pending)) =
      some (1, []) := by decide
/-- R47: byte 1 of ID, which reads 0x464D4143, is 0x41. -/
theorem test_window_byte : windowByte .reset 0x001 = some 0x41 := by decide

/-! ## Witnesses: what the statements assume can be met -/

theorem witness_MmulByIdentityIsExact :
    let s := State.reset.setM 1 matA
    (s.getM 0 = resetMatrix ∧ s.getM 1 = matA) ∧ (s.getM 1 = matA ∧ s.getM 0 = resetMatrix) := by
  decide

theorem witness_ScaleAndTranslateAreProducts :
    let s := State.reset.setV 1 #v[0x2000, 0x3000, 0x800, 0x80000000]
    (s.setM 2 (scalingMatrix (s.getV 1))).getM 2 =
      scalingMatrix ((s.setM 2 (scalingMatrix (s.getV 1))).getV 1) ∧
    (s.setM 2 (translationMatrix (s.getV 1))).getM 2 =
      translationMatrix ((s.setM 2 (translationMatrix (s.getV 1))).getV 1) := by decide

/-- R98's own instance: (1, 2, 3) + (4, 5, 6) = (5, 7, 9). -/
theorem witness_TranslationsOfIdentityCompose :
    let s := ((State.reset.setV 0 #v[0x1000, 0x2000, 0x3000, 0]).setV 1
      #v[0x4000, 0x5000, 0x6000, 0]).setV 2 #v[0x5000, 0x7000, 0x9000, 0]
    s.getM 4 = resetMatrix ∧ ∀ j : Fin 4, j.val < 3 →
      laneInt (s.getV 2) j.val = laneInt (s.getV 0) j.val + laneInt (s.getV 1) j.val := by decide

theorem witness_MgetidxIsAnElementOfMmul :
    let s := (State.reset.setM 0 matA).setM 1 matB
    s.config = s.config ∧ s.getM 0 = s.getM 0 ∧ s.getM 1 = s.getM 1 ∧ s.getM 0 ≠ s.getM 1 := by decide

theorem witness_SmacByZeroChangesNothing :
    (withS .reset 5 0 7).getS 1 = 0 ∧ (withS .reset 5 7 0).getS 2 = 0 := by decide

theorem witness_Mvmul4ByIdentityChangesNothing :
    (State.reset.setV 2 #v[1, 2, 3, 0x80000000]).getM 0 = resetMatrix := by decide

/-- Two states that agree on all that is read, and differ in row 3, column 3 and lane 3. -/
theorem witness_UnreadOperandsHaveNoInfluence :
    let s := (State.reset.setM 0 matA).setV 2 #v[1, 2, 3, 4]
    let u := ((s.setElem 0 3 9).setElem 0 12 9).setLane 2 3 9
    let w := s.setLane 2 3 9
    (s.config = u.config ∧
      (∀ e : Fin 16, e.val % 4 < 3 → e.val < 12 → (u.getM 0)[e.val] = (s.getM 0)[e.val]) ∧
      ∀ j : Fin 4, j.val < 3 → (u.getV 2)[j.val] = (s.getV 2)[j.val]) ∧
    (s.config = w.config ∧ s.getM 0 = w.getM 0 ∧
      ∀ j : Fin 4, j.val < 3 → (w.getV 2)[j.val] = (s.getV 2)[j.val]) ∧
    (u.getM 0 ≠ s.getM 0 ∧ w.getV 2 ≠ s.getV 2) := by decide

theorem witness_AccumulatorWrapsInAnyOrder :
    [2 ^ 62, -5, 7].Perm [7, 2 ^ 62, (-5 : Int)] ∧
      -2 ^ 63 ≤ [2 ^ 62, -5, (7 : Int)].sum ∧ [2 ^ 62, -5, (7 : Int)].sum ≤ 2 ^ 63 - 1 := by decide

theorem witness_EncodeInvertsDecode : decode 0x150F0777 = .ok (.mgetidx 7 7 7 15) := by decide

theorem witness_RowsMatchExactlyTheirCommands :
    (0x01000700#32) &&& Mnemonic.mident.maskWord = Mnemonic.mident.matchWord := by decide

/-- One word for each of the three grounds of R66. -/
theorem witness_IllegalWordsOnlySetIll :
    legal 0x22000000 = false ∧ legal 0x00000008 = false ∧ legal 0x02000001 = false := by decide

/-- Another width; misaligned; the first reserved offset; the last offset of the window. -/
theorem witness_NonAdmittedAccessesOnlySetBuserr :
    AccessWidth.w8.bytes ≠ 4 ∧ (0x3FD : Offset).toNat % 4 ≠ 0 ∧
      mapped 0x010 = false ∧ mapped 0xFFF = false ∧ mapped 0x07F = false ∧ mapped 0x0A0 = false := by
  decide

theorem witness_RegisterFilesReadAndWrite :
    WindowReg.scalar 7 ∉ [WindowReg.id, .cfg, .status, .cmd] ∧
    WindowReg.lane 7 3 ∉ [WindowReg.id, .cfg, .status, .cmd] ∧
    WindowReg.element 7 15 ∉ [WindowReg.id, .cfg, .status, .cmd] ∧
    WindowReg.element 7 15 ≠ .element 7 14 := by decide

theorem witness_WritesAreIdempotentExceptCmd :
    admitted 0x3FC .w32 = true ∧ regAt 0x008 ≠ some .cmd ∧
      after (memWrite 0x008 .w32 6 (State.reset.setStatus 6)) (·.status) = some 0 := by decide

theorem witness_WindowIsFourKiBFromBase : offsetOf (hostAddress 0xFFF) = some 0xFFF := by
  simp [offsetOf, hostAddress]

/-- Each clause: a CMD write next on the bus; a word placed by the host; an empty bus. -/
theorem witness_StepRunsTheDecodedCommand :
    let s := State.reset.withFetchWord 32 0x20000012
    (s.pending = .write 0x00C .w32 0x20000012 :: [] ∧ decode 0x20000012 = .ok (.smul 0 1 2)) ∧
      decodeTableWord 32 0x20000012 = some (.smul 0 1 2) ∧ State.reset.pending = [] := by decide

theorem witness_StepRecordsAnIllegalCommand :
    (State.reset.withFetchWord 32 0xFF000000).pending = .write 0x00C .w32 0xFF000000 :: [] ∧
      legal 0xFF000000 = false := by decide

/-- A state whose bus holds the given events. -/
def onBus (es : List BusEvent) : State := { State.reset with pending := es }

theorem witness_ReadFollowsTheLastWrite :
    WindowReg.lane 7 3 ∉ [WindowReg.id, .cfg, .status, .cmd] ∧
      (onBus [.write (WindowReg.lane 7 3).offset .w32 5,
        .read (WindowReg.lane 7 3).offset .w32]).pending =
        .write (WindowReg.lane 7 3).offset .w32 5 ::
          .read (WindowReg.lane 7 3).offset .w32 :: [] := by decide

theorem witness_ResetEventRestoresTheBlock : (onBus [.reset]).pending = .reset :: [] := rfl

theorem witness_EveryStepKeepsReservedStatusBitsZero :
    ((onBus [issue 0xFF000000]).setStatus 7).Inv ∧
      after (step ((onBus [issue 0xFF000000]).setStatus 7)) (·.status) = some 7 := by decide

theorem witness_NoStepChangesTheParameter :
    after (step { saturating with pending := [.reset] }) (·.config) = some { saturate := true } := by
  decide

theorem witness_EachStepPerformsOneAccess :
    (onBus [.read 0x008 .w32]).pending = .read 0x008 .w32 :: [] ∧
      after (step (onBus [.read 0x008 .w32])) (·.returned) = some [0] := by decide

theorem witness_OnlyCompareChangesEq :
    after (step (onBus [issue 0x03000001])) (·.eq) = some true ∧
      (onBus [issue 0x03000001]).eq = false := by decide

theorem witness_ErrorBitsStaySetUntilCleared :
    let s := (onBus [.write 0x008 .w32 6]).setStatus 6
    (s.ill = true ∧ after (step s) (·.ill) = some false) ∧
      (s.busErr = true ∧ after (step s) (·.busErr) = some false) := by decide

theorem witness_OneAccessRaisesAtMostOneError :
    ((onBus [issue 0xFF000000]).ill = false ∧
      after (step (onBus [issue 0xFF000000])) (·.ill) = some true) ∧
    ((onBus [.read 0x400 .w32]).busErr = false ∧
      after (step (onBus [.read 0x400 .w32])) (·.busErr) = some true) := by decide

theorem witness_CommandsWriteOnlyTheirDestinations :
    after (exec (.mscale 4 1) .reset) (fun t => (t.getM 4)[15]) = some 0x1000 ∧
      regAt 0x33C = some (.element 4 15) ∧ writesReg (.mscale 4 1) (.element 4 15) = false := by decide

theorem witness_CleanTrafficNeverRaisesAnError :
    let s := onBus [issue 0x10000010, .read 0x3FC .w32, .write 0x080 .w32 7, .reset]
    s.errorFree = true ∧ ∀ e ∈ s.pending, e.clean = true := by decide

theorem witness_PseudoInstructionsExpand : State.reset.pending = [] := rfl

end Sys2Proof.Tests
end

section
/-! PROOFS. The shift-down and the accumulator of R16 and R17. -/

namespace Sys2Proof.Proofs.Accumulator

open Sys2Proof.Machine

/-- The saturating shift-down, read as signed, is the floor clamped to the 32-bit range (R16). -/
theorem toInt_shiftDown_saturating (acc : Int) :
    (shiftDown true acc).toInt = max (-2 ^ 31) (min (2 ^ 31 - 1) (acc / 4096)) := by
  obtain ⟨-, habove, heq⟩ | ⟨-, hbelow, heq⟩ | ⟨hrange, heq⟩ := shiftDown_cases true acc
  · have hmax : (0x7FFFFFFF : Word).toInt = 2 ^ 31 - 1 := by decide
    rw [heq, hmax]
    omega
  · have hmin : (0x80000000 : Word).toInt = -2 ^ 31 := by decide
    rw [heq, hmin]
    omega
  · obtain ⟨hlow, hhigh⟩ := hrange rfl
    rw [heq, BitVec.toInt_ofInt_eq_self (by decide) (by norm_num; omega) (by norm_num; omega)]
    omega

/-- In wrap mode only the shift of `shiftDown_cases` is left (R16). -/
theorem shiftDown_wrapping (acc : Int) : shiftDown false acc = BitVec.ofInt 32 (acc / 4096) := by
  obtain ⟨hsat, -⟩ | ⟨hsat, -⟩ | ⟨-, heq⟩ := shiftDown_cases false acc
  · cases hsat
  · cases hsat
  · exact heq

/-- Reading the accumulator as signed changes its floor by a multiple of 2^52, which the low 32 bits
do not see: they are the accumulator's bits [43:12]. -/
theorem ofInt_toInt_div (acc : BitVec 64) :
    BitVec.ofInt 32 (acc.toInt / 4096) = acc.extractLsb' 12 32 := by
  apply BitVec.eq_of_toNat_eq
  rw [BitVec.toNat_ofInt, BitVec.extractLsb'_toNat, Nat.shiftRight_eq_div_pow,
    BitVec.toInt_eq_toNat_cond]
  split <;> omega

/-- Settles O14: the two modes by their lemmas, the two thresholds by evaluation in each mode. -/
theorem shiftDownClampsOrWraps : Obligations.ShiftDownClampsOrWraps := by
  refine ⟨toInt_shiftDown_saturating, fun acc => ?_, fun sat => ?_, fun sat => ?_⟩
  · rw [shiftDown_wrapping, ofInt_toInt_div]
  · cases sat <;> decide
  · cases sat <;> decide

/-- The accumulator does not depend on the order of its terms (R17). -/
theorem acc64_perm {ts us : List Int} (h : ts.Perm us) : acc64 ts = acc64 us :=
  congrArg wrap64 h.sum_eq

/-- Settles O16: the order by `acc64_perm`, the value by what `wrap64` does to the sum. -/
theorem accumulatorWrapsInAnyOrder : Obligations.AccumulatorWrapsInAnyOrder := by
  intro ts us hperm
  obtain ⟨hlow, hhigh, hmod⟩ : -2 ^ 63 ≤ acc64 ts ∧ acc64 ts < 2 ^ 63 ∧
      acc64 ts % 2 ^ 64 = ts.sum % 2 ^ 64 := wrap64_spec ts.sum
  refine ⟨acc64_perm hperm, hlow, Int.le_sub_one_of_lt hhigh, ?_, fun hmin hmax => ?_⟩
  · exact Int.ModEq.dvd hmod.symm
  · exact wrap64_of_range hmin (Int.lt_of_le_sub_one hmax)

end Sys2Proof.Proofs.Accumulator
end

section
/-! PROOFS. The CFG register of R25: what its offset reaches, what it reads, what a write of it does. -/

namespace Sys2Proof.Proofs.Cfg

open Sys2Proof.Machine

/-- The aligned 32-bit access at 0x004 is admitted and reaches CFG (R41, R42). -/
theorem admittedReg_cfg : admittedReg 0x004 .w32 = some .cfg := by decide

/-- Of the two outcomes of `memRead_cases`, a read of CFG has the one that reads the register (R44). -/
theorem memRead_cfg (s : State) : memRead 0x004 .w32 s = (cfgValue s.config, s) := by
  obtain ⟨hnone, -⟩ | ⟨r, hsome, hread⟩ := memRead_cases 0x004 .w32 s
  · rw [admittedReg_cfg] at hnone
    cases hnone
  · rw [admittedReg_cfg] at hsome
    cases hsome
    exact hread

/-- A host write of CFG is ignored and raises no error, whatever the datum (R25, R44). -/
theorem memWrite_cfg (v : Word) (s : State) : memWrite 0x004 .w32 v s = .next s := by
  rw [memWrite, admittedReg_cfg]

/-- The field table of R25 as one word for each value of the parameter. -/
theorem cfgValue_eq (c : Config) :
    cfgValue c = if c.saturate then 0x0C088801 else 0x0C088800 := by
  obtain ⟨saturate⟩ := c
  cases saturate <;> decide

/-- Settles O35: the read is one of the two words of `cfgValue_eq`, whose fields are then evaluated. -/
theorem cfgReportsTheParameters : Obligations.CfgReportsTheParameters := by
  intro v s
  simp only [memRead_cfg, cfgValue_eq, memWrite_cfg, and_true]
  cases s.config.saturate with
  | false => decide
  | true => decide

end Sys2Proof.Proofs.Cfg
end

section
/-! PROOFS. The register window of R41 to R48: which accesses are admitted, what a read and a write
of each register do, and that a write repeated is the write once. -/

namespace Sys2Proof.Proofs.Window

open Sys2Proof.Machine

/-! ### Admission -/

/-- An offset is mapped exactly when the address map lists it as other than reserved (R41). -/
theorem mapped_iff_listed (off : Offset) : mapped off = true ↔ ListedOffset off.toNat := by
  simp only [mapped, regAt, ListedOffset]
  split_ifs
  all_goals
    simp only [Option.isSome_some, Option.isSome_none, Bool.false_eq_true, true_iff, false_iff]
    omega

/-- The three conditions of R42. -/
theorem admitted_iff (off : Offset) (n : AccessWidth) :
    admitted off n = true ↔ n.bytes = 4 ∧ off.toNat % 4 = 0 ∧ ListedOffset off.toNat := by
  simp only [admitted, Bool.and_eq_true, beq_iff_eq, mapped_iff_listed, and_assoc]

/-- An access that is not admitted reaches no register (R42). -/
theorem admittedReg_of_not_admitted {off : Offset} {n : AccessWidth} (h : ¬ admitted off n = true) :
    admittedReg off n = none := if_neg h

/-- Every register stands at its own offset of the address map (R41). -/
theorem regAt_offset (r : WindowReg) : regAt r.offset = some r := by
  cases r with
  | id | cfg | status | cmd => rfl
  | scalar n => revert n; decide
  | lane n j => revert n j; decide
  | element n e => revert n e; decide

/-- The offset of every register is a multiple of 4 (R41). -/
theorem offset_aligned (r : WindowReg) : r.offset.toNat % 4 = 0 := by
  cases r with
  | id | cfg | status | cmd => rfl
  | scalar n | lane n j | element n e => simp only [WindowReg.offset, BitVec.toNat_ofNat]; omega

/-- The 32-bit access at the offset of a register is admitted and reaches that register (R42). -/
theorem admittedReg_offset (r : WindowReg) : admittedReg r.offset .w32 = some r := by
  have hadm : admitted r.offset .w32 = true := by
    simp [admitted, mapped, AccessWidth.bytes, offset_aligned, regAt_offset]
  rw [admittedReg, if_pos hadm, regAt_offset]

/-! ### Reads and writes, by the register they reach (R45) -/

section Access

variable {off : Offset} {n : AccessWidth} (v : Word) (s : State)

theorem memRead_of_none (h : admittedReg off n = none) :
    memRead off n s = (0, s.raise .busError) := by rw [memRead, h]

theorem memRead_of_reg {r : WindowReg} (h : admittedReg off n = some r) :
    memRead off n s = (readReg s r, s) := by rw [memRead, h]

theorem memWrite_of_none (h : admittedReg off n = none) :
    memWrite off n v s = .next (s.raise .busError) := by rw [memWrite, h]

/-- A write of ID or CFG is ignored (R44). -/
theorem memWrite_of_constant (h : admittedReg off n = some .id ∨ admittedReg off n = some .cfg) :
    memWrite off n v s = .next s := by
  obtain h | h := h
  · rw [memWrite, h]
  · rw [memWrite, h]

theorem memWrite_of_status (h : admittedReg off n = some .status) :
    memWrite off n v s = .next (s.setStatus (writeOneToClear s.status v)) := by rw [memWrite, h]

theorem memWrite_of_cmd (h : admittedReg off n = some .cmd) :
    memWrite off n v s = execute v s := by rw [memWrite, h]

theorem memWrite_of_scalar {i : RegNo} (h : admittedReg off n = some (.scalar i)) :
    memWrite off n v s = .next (s.setS i v) := by rw [memWrite, h]

theorem memWrite_of_lane {i : RegNo} {j : Fin 4} (h : admittedReg off n = some (.lane i j)) :
    memWrite off n v s = .next (s.setLane i j v) := by rw [memWrite, h]

theorem memWrite_of_element {i : RegNo} {e : Fin 16} (h : admittedReg off n = some (.element i e)) :
    memWrite off n v s = .next (s.setElem i e v) := by rw [memWrite, h]

end Access

/-- A legal command word executes as its command (R31). -/
theorem execute_of_decode {w : Word} {i : Instr} (h : decode w = .ok i) (s : State) :
    execute w s = exec i s := by rw [execute, h]

/-! ### Non-admitted accesses -/

/-- Recording a bus error sets bit 2 of STATUS and nothing else (R111, R26). -/
theorem raise_busError (s : State) :
    s.raise .busError = { s with status := s.status ||| 0x00000004 } := rfl

/-- Settles O32: by R42 the access reaches no register, and so records a bus error. -/
theorem nonAdmittedAccessesOnlySetBuserr : Obligations.NonAdmittedAccessesOnlySetBuserr := by
  intro off n v s hbad
  have hnone : admittedReg off n = none :=
    admittedReg_of_not_admitted fun hadm => hbad ((admitted_iff off n).mp hadm)
  rw [memRead_of_none s hnone, memWrite_of_none v s hnone, raise_busError]
  exact ⟨rfl, rfl⟩

/-! ### What the window reads after a register is written (R43) -/

section ReadAfterWrite

variable (s : State) (v : Word) {r : WindowReg}

theorem readReg_setS_self (i : RegNo) : readReg (s.setS i v) (.scalar i) = v := s.getS_setS_self i v

theorem readReg_setS_ne {i : RegNo} (h : r ≠ .scalar i) :
    readReg (s.setS i v) r = readReg s r := by
  cases r with
  | scalar k => exact s.getS_setS_ne v fun hk => h (congrArg _ hk)
  | id | cfg | status | cmd | lane | element => rfl

theorem readReg_setLane_self (i : RegNo) (j : Fin 4) :
    readReg (s.setLane i j v) (.lane i j) = v := by
  simp [readReg, State.getV_setLane_self]

/-- Another lane belongs to another register, or to the same one at another place. -/
theorem readReg_setLane_ne {i : RegNo} {j : Fin 4} (h : r ≠ .lane i j) :
    readReg (s.setLane i j v) r = readReg s r := by
  cases r with
  | lane k l =>
    by_cases hk : k = i
    · subst hk
      have hl : j.val ≠ l.val := fun hjl => h (congrArg _ (Fin.ext hjl.symm))
      simp [readReg, State.getV_setLane_self, Vector.getElem_set_ne, hl]
    · simp [readReg, State.getV_setLane_ne, hk]
  | id | cfg | status | cmd | scalar | element => rfl

theorem readReg_setElem_self (i : RegNo) (e : Fin 16) :
    readReg (s.setElem i e v) (.element i e) = v := by
  simp [readReg, State.getM_setElem_self]

/-- Another element belongs to another register, or to the same one at another place. -/
theorem readReg_setElem_ne {i : RegNo} {e : Fin 16} (h : r ≠ .element i e) :
    readReg (s.setElem i e v) r = readReg s r := by
  cases r with
  | element k f =>
    by_cases hk : k = i
    · subst hk
      have hf : e.val ≠ f.val := fun hef => h (congrArg _ (Fin.ext hef.symm))
      simp [readReg, State.getM_setElem_self, Vector.getElem_set_ne, hf]
    · simp [readReg, State.getM_setElem_ne, hk]
  | id | cfg | status | cmd | scalar | lane => rfl

end ReadAfterWrite

/-- Settles O33: every register is reached at its offset; a write of S, V or M is the update of its
file, whose effect on every other register of the window is that of the lemmas above. -/
theorem registerFilesReadAndWrite : Obligations.RegisterFilesReadAndWrite := by
  intro r v s hfile
  have hreg := admittedReg_offset r
  refine ⟨memRead_of_reg s hreg, ?_⟩
  cases r with
  | id | cfg | status | cmd => simp at hfile
  | scalar i =>
    exact ⟨s.setS i v, memWrite_of_scalar v s hreg, readReg_setS_self s v i,
      fun _ => readReg_setS_ne s v, rfl, rfl, rfl, rfl⟩
  | lane i j =>
    exact ⟨s.setLane i j v, memWrite_of_lane v s hreg, readReg_setLane_self s v i j,
      fun _ => readReg_setLane_ne s v, rfl, rfl, rfl, rfl⟩
  | element i e =>
    exact ⟨s.setElem i e v, memWrite_of_element v s hreg, readReg_setElem_self s v i e,
      fun _ => readReg_setElem_ne s v, rfl, rfl, rfl, rfl⟩

/-! ### The control registers (R44) -/

/-- Settles O34: the four offsets reach ID, CFG, STATUS and CMD; CFG reads one of its two words, and
the clearing write of STATUS is one mask. -/
theorem controlRegistersReadAndWrite : Obligations.ControlRegistersReadAndWrite := by
  intro v s
  have hid : admittedReg 0x000 .w32 = some .id := admittedReg_offset .id
  have hstatus : admittedReg 0x008 .w32 = some .status := admittedReg_offset .status
  have hcmd : admittedReg 0x00C .w32 = some .cmd := admittedReg_offset .cmd
  refine ⟨memRead_of_reg s hid, ?_, memWrite_of_constant v s (.inl hid), Cfg.memWrite_cfg v s,
    memRead_of_reg s hstatus, ?_, memRead_of_reg s hcmd, memWrite_of_cmd v s hcmd⟩
  · rw [Cfg.memRead_cfg, Cfg.cfgValue_eq]
  · rw [memWrite_of_status v s hstatus, writeOneToClear_eq]
    rfl

/-! ### A write repeated (R48) -/

section Repeated

variable (s : State)

theorem setS_setS (i : RegNo) (x y : Word) : (s.setS i x).setS i y = s.setS i y := by
  simp [State.setS]

theorem setV_setV (i : RegNo) (x y : Vec) : (s.setV i x).setV i y = s.setV i y := by
  simp [State.setV]

theorem setM_setM (i : RegNo) (x y : Mat) : (s.setM i x).setM i y = s.setM i y := by
  simp [State.setM]

theorem setLane_setLane (i : RegNo) (j : Fin 4) (x y : Word) :
    (s.setLane i j x).setLane i j y = s.setLane i j y := by
  simp [State.setLane, setV_setV]

theorem setElem_setElem (i : RegNo) (e : Fin 16) (x y : Word) :
    (s.setElem i e x).setElem i e y = s.setElem i e y := by
  simp [State.setElem, setM_setM]

/-- A second bus error sets a bit that is set. -/
theorem raise_busError_twice : (s.raise .busError).raise .busError = s.raise .busError := by
  simp only [raise_busError, BitVec.or_assoc, BitVec.or_self]

/-- A second clearing write clears bits that are clear (R26). -/
theorem writeOneToClear_twice (status v : Word) :
    writeOneToClear (writeOneToClear status v) v = writeOneToClear status v := by
  simp only [writeOneToClear_eq, BitVec.and_assoc, BitVec.and_self]

end Repeated

/-- The state after a read: as before if the access is admitted, a bus error recorded if not. -/
theorem memRead_state (off : Offset) (n : AccessWidth) (s : State) :
    (memRead off n s).2 = if admitted off n then s else s.raise .busError := by
  obtain ⟨hnone, hread⟩ | ⟨r, hsome, hread⟩ := memRead_cases off n s
  · simp [hread, admittedReg_none hnone]
  · obtain ⟨hadm, -⟩ := admittedReg_some hsome
    simp [hread, hadm]

/-- A write of any register but CMD, done twice, is the write once (R48). -/
theorem memWrite_twice {off : Offset} {n : AccessWidth} {v : Word} {s t : State}
    (hcmd : admittedReg off n ≠ some .cmd) (h : memWrite off n v s = .next t) :
    memWrite off n v t = .next t := by
  obtain ⟨hr, rfl⟩ | ⟨hr, rfl⟩ | ⟨hr, rfl⟩ | ⟨hr, -⟩ | ⟨i, hr, rfl⟩ | ⟨i, j, hr, rfl⟩ |
    ⟨i, e, hr, rfl⟩ := memWrite_cases h
  · rw [memWrite_of_none v _ hr, raise_busError_twice]
  · exact h
  · rw [memWrite_of_status v _ hr, State.setStatus_status, writeOneToClear_twice]
    rfl
  · exact absurd hr hcmd
  · rw [memWrite_of_scalar v _ hr, setS_setS]
  · rw [memWrite_of_lane v _ hr, setLane_setLane]
  · rw [memWrite_of_element v _ hr, setElem_setElem]

/-- Reset with S1 = 1.0 and S0 = `x`: a state in which `SMAC S0, S1, S1` adds 1.0 to S0. -/
def accumulating (x : Word) : State := (State.reset.setS 1 one).setS 0 x

/-- The word of `SMAC S0, S1, S1`, issued, puts the sum in the place of `x` (R31, R82). -/
theorem issue_smac_accumulating (x : Word) :
    memWrite 0x00C .w32 0x21000011 (accumulating x) =
      .next (accumulating (dot false [shiftUp x, mul64 one one])) := by
  have hdec : decode 0x21000011 = .ok (.smac 0 1 1) := by decide
  have hcmd : admittedReg 0x00C .w32 = some .cmd := admittedReg_offset .cmd
  have hS0 : (accumulating x).getS 0 = x := State.getS_setS_self _ 0 x
  have hS1 : (accumulating x).getS 1 = one := by
    rw [accumulating, State.getS_setS_ne _ x (by decide), State.getS_setS_self]
  rw [memWrite_of_cmd _ _ hcmd, execute_of_decode hdec, exec_smac, hS0, hS1, accumulating,
    setS_setS]
  rfl

/-- Settles O36: reads by `memRead_state`, writes by `memWrite_twice`; and `SMAC` is a command that
is not idempotent: issued once S0 goes from 0 to 1.0, issued twice to 2.0. -/
theorem writesAreIdempotentExceptCmd : Obligations.WritesAreIdempotentExceptCmd := by
  refine ⟨memRead_state, fun off n v s t hcmd h => ?_, ?_⟩
  · refine memWrite_twice (fun hreach => hcmd ?_) h
    obtain ⟨-, hat, -⟩ := admittedReg_some hreach
    exact hat
  · have hone : dot false [shiftUp 0, mul64 one one] = 0x1000 := by decide
    have htwo : dot false [shiftUp 0x1000, mul64 one one] = 0x2000 := by decide
    refine ⟨0x21000011, accumulating 0, accumulating 0x1000, ?_, fun hsame => ?_⟩
    · rw [issue_smac_accumulating, hone]
    · rw [issue_smac_accumulating, htwo] at hsame
      injection hsame with hstate
      exact absurd (congrArg (·.getS 0) hstate) (by decide)

end Sys2Proof.Proofs.Window
end

section
/-! PROOFS. The command word of R60 to R66: a row's match and mask, field by field; which words are
legal; and what an illegal word does. -/

namespace Sys2Proof.Proofs.Encoding

open Sys2Proof.Machine

/-! ### Masking a word is masking its fields (R61, R65) -/

/-- The bitwise and of two sets of fields, field by field. -/
def fieldsAnd (f g : CommandFields) : CommandFields where
  op := f.op &&& g.op
  z0 := f.z0 &&& g.z0
  idx := f.idx &&& g.idx
  z1 := f.z1 &&& g.z1
  z2 := f.z2 &&& g.z2
  d := f.d &&& g.d
  z3 := f.z3 &&& g.z3
  a := f.a &&& g.a
  z4 := f.z4 &&& g.z4
  b := f.b &&& g.b

/-- The reserved fields z0 to z4 all ones, every other field 0. -/
def reservedMask : CommandFields :=
  { op := 0, z0 := BitVec.allOnes 4, z1 := BitVec.allOnes 4, z2 := BitVec.allOnes 1,
    z3 := BitVec.allOnes 1, z4 := BitVec.allOnes 1 }

/-- What R65 masks for a format: op, the reserved fields, and the fields the format does not use. -/
def formatMask (fmt : Format) : CommandFields :=
  let fixed : CommandFields := { reservedMask with op := BitVec.allOnes 8 }
  match fmt with
  | .n => { fixed with
      idx := BitVec.allOnes 4, d := BitVec.allOnes 3, a := BitVec.allOnes 3, b := BitVec.allOnes 3 }
  | .d => { fixed with idx := BitVec.allOnes 4, a := BitVec.allOnes 3, b := BitVec.allOnes 3 }
  | .da => { fixed with idx := BitVec.allOnes 4, b := BitVec.allOnes 3 }
  | .ab => { fixed with idx := BitVec.allOnes 4, d := BitVec.allOnes 3 }
  | .dab => { fixed with idx := BitVec.allOnes 4 }
  | .dabi => fixed

theorem ofWord_and (v w : Word) :
    CommandFields.ofWord (v &&& w) = fieldsAnd (.ofWord v) (.ofWord w) := by
  simp only [CommandFields.ofWord, fieldsAnd, BitVec.extractLsb'_and]

/-- Two words are equal when their fields are. -/
theorem ofWord_inj {v w : Word} : CommandFields.ofWord v = .ofWord w ↔ v = w :=
  (Function.LeftInverse.injective CommandFields.toWord_ofWord).eq_iff

theorem ofWord_maskWord (m : Mnemonic) : CommandFields.ofWord m.maskWord = formatMask m.format := by
  cases m <;> decide

theorem ofWord_matchWord (m : Mnemonic) : CommandFields.ofWord m.matchWord = { op := m.op } := by
  cases m <;> decide

/-- Fields masked for a format leave a bare op exactly when op is that op and everything else the
mask keeps is 0 (R62, R65). -/
theorem fieldsAnd_formatMask_eq_iff (f : CommandFields) (fmt : Format) (op : BitVec 8) :
    fieldsAnd f (formatMask fmt) = { op := op } ↔
      f.op = op ∧ f.reservedZero = true ∧ f.unusedZero fmt = true := by
  cases fmt <;>
    simp [fieldsAnd, formatMask, reservedMask, CommandFields.reservedZero,
      CommandFields.unusedZero, -BitVec.reduceAllOnes] <;>
    tauto

/-- A row's match and mask say of the fields of a word what the decoder checks (R65, R66). -/
theorem and_maskWord_eq_matchWord_iff (w : Word) (m : Mnemonic) :
    w &&& m.maskWord = m.matchWord ↔
      (CommandFields.ofWord w).op = m.op ∧ (CommandFields.ofWord w).reservedZero = true ∧
        (CommandFields.ofWord w).unusedZero m.format = true := by
  rw [← ofWord_inj, ofWord_and, ofWord_maskWord, ofWord_matchWord, fieldsAnd_formatMask_eq_iff]

/-! ### What the decoder accepts (R65, R66) -/

/-- The decoder makes of some fields a command of a row exactly when they have the row's op, zero
reserved fields and zero unused fields. -/
theorem decode_to_row_iff (f : CommandFields) (m : Mnemonic) :
    (∃ i, f.decode = .ok i ∧ i.mnemonic = m) ↔
      f.op = m.op ∧ f.reservedZero = true ∧ f.unusedZero m.format = true := by
  constructor
  · rintro ⟨i, hdec, rfl⟩
    obtain ⟨m, hop, hreserved, hunused, rfl⟩ := CommandFields.decode_ok hdec
    rw [Instr.mnemonic_ofFields]
    exact ⟨(Mnemonic.op_of_ofOp hop).symm, hreserved, hunused⟩
  · rintro ⟨hop, hreserved, hunused⟩
    refine ⟨Instr.ofFields m f, ?_, Instr.mnemonic_ofFields m f⟩
    simp [CommandFields.decode, hop, hreserved, hunused]

/-- A word is in a row of the table exactly when it decodes to a command of that row (R65). -/
theorem and_maskWord_iff_decode (w : Word) (m : Mnemonic) :
    w &&& m.maskWord = m.matchWord ↔ ∃ i, decode w = .ok i ∧ i.mnemonic = m := by
  rw [and_maskWord_eq_matchWord_iff, ← decode_to_row_iff]
  rfl

/-- Settles O27: rows against commands by `and_maskWord_iff_decode`; a word of two rows decodes to
one command, which is of one row. -/
theorem rowsMatchExactlyTheirCommands : Obligations.RowsMatchExactlyTheirCommands := by
  refine fun w => ⟨and_maskWord_iff_decode w, fun m m' hm hm' => ?_⟩
  obtain ⟨i, hdec, rfl⟩ := (and_maskWord_iff_decode w m).mp hm
  obtain ⟨i', hdec', rfl⟩ := (and_maskWord_iff_decode w m').mp hm'
  rw [hdec] at hdec'
  cases hdec'
  rfl

/-! ### Legal words (R66) -/

theorem mnemonic_mem_all (m : Mnemonic) : m ∈ Mnemonic.all := by cases m <;> decide

/-- A word is legal exactly when it is in a row of the table. -/
theorem legal_iff_row (w : Word) :
    legal w = true ↔ ∃ m : Mnemonic, w &&& m.maskWord = m.matchWord := by
  simp only [legal, List.any_eq_true, mnemonic_mem_all, true_and, Mnemonic.matchesWord, beq_iff_eq]

/-- A word that is not legal does not decode. -/
theorem decode_of_not_legal {w : Word} (h : legal w = false) : ∃ x, decode w = .error x := by
  cases hdec : decode w with
  | error x => exact ⟨x, rfl⟩
  | ok i =>
    have hlegal : legal w = true :=
      (legal_iff_row w).mpr ⟨i.mnemonic, (and_maskWord_iff_decode w _).mpr ⟨i, hdec, rfl⟩⟩
    rw [h] at hlegal
    cases hlegal

/-- The opcode map names no row for exactly the reserved opcodes (R64, R66). -/
theorem ofOp_eq_none_iff (op : BitVec 8) : Mnemonic.ofOp op = none ↔ ReservedOpcode op.toNat := by
  have hop := op.isLt
  simp [Mnemonic.ofOp, Mnemonic.all, Mnemonic.op, List.find?_eq_none, ← BitVec.toNat_inj,
    ReservedOpcode]
  omega

/-- The bits of `0x00F0F888` are those of z0 to z4 (R61, R66). -/
theorem and_reservedBits_eq_zero_iff (w : Word) :
    w &&& 0x00F0F888 = 0 ↔ (CommandFields.ofWord w).reservedZero = true := by
  have hmask : CommandFields.ofWord 0x00F0F888 = reservedMask := by decide
  have hzero : CommandFields.ofWord 0 = { op := 0 } := by decide
  rw [← ofWord_inj, ofWord_and, hmask, hzero]
  simp [fieldsAnd, reservedMask, CommandFields.reservedZero, and_assoc, -BitVec.reduceAllOnes]

/-- A word is not legal on exactly the three grounds of R66. -/
theorem not_legal_iff (w : Word) :
    legal w = false ↔
      Mnemonic.ofOp (CommandFields.ofWord w).op = none ∨
      (CommandFields.ofWord w).reservedZero = false ∨
      ∃ m : Mnemonic, m.op = (CommandFields.ofWord w).op ∧
        (CommandFields.ofWord w).unusedZero m.format = false := by
  simp only [← Bool.not_eq_true, legal_iff_row, and_maskWord_eq_matchWord_iff]
  generalize CommandFields.ofWord w = f
  cases hrow : Mnemonic.ofOp f.op with
  | none =>
    have hno : ∀ m : Mnemonic, f.op ≠ m.op := by
      rintro m hop
      rw [hop, Mnemonic.ofOp_op] at hrow
      cases hrow
    simp [hno]
  | some m =>
    have hop : ∀ m' : Mnemonic, m'.op = f.op ↔ m' = m := by
      refine fun m' => ⟨fun h => ?_, fun h => h ▸ Mnemonic.op_of_ofOp hrow⟩
      rw [← h, Mnemonic.ofOp_op] at hrow
      exact Option.some.inj hrow
    simp only [eq_comm (a := f.op), hop, exists_eq_left]
    tauto

/-- Recording an illegal command sets bit 1 of STATUS and nothing else (R110, R26). -/
theorem raise_illegalCommand (s : State) :
    s.raise .illegalCommand = { s with status := s.status ||| 0x00000002 } := rfl

/-- Settles O28: the grounds are those of `not_legal_iff`, in the words of the statement; and what does
not decode records an illegal command. -/
theorem illegalWordsOnlySetIll : Obligations.IllegalWordsOnlySetIll := by
  refine fun w s => ⟨?_, fun h => ?_⟩
  · rw [not_legal_iff, ofOp_eq_none_iff, Ne, and_reservedBits_eq_zero_iff, Bool.not_eq_true]
    rfl
  · obtain ⟨x, hdec⟩ := decode_of_not_legal h
    rw [execute, hdec, raise_illegalCommand]

end Sys2Proof.Proofs.Encoding
end

section
/-! PROOFS. The pseudo-instructions of R70: the accesses they issue, and that the accesses of `LDV` and
`LDM`, performed one by one, load the register. -/

namespace Sys2Proof.Proofs.Pseudos

open Sys2Proof.Machine

/-! ### The accesses a pseudo-instruction issues -/

theorem programEvents_pseudo (p : Pseudo) :
    programEvents [.pseudo p] = (expandPseudo p).map lineEvent := by
  simp [programEvents, expandLine]

theorem programEvents_ldv (n : RegNo) (v : Vec) : programEvents [.pseudo (.ldv n v)] =
    (List.finRange 4).map fun j => .write (WindowReg.lane n j).offset .w32 v[j.val] :=
  (programEvents_pseudo (.ldv n v)).trans List.map_map

theorem programEvents_ldm (n : RegNo) (e : Mat) : programEvents [.pseudo (.ldm n e)] =
    (List.finRange 16).map fun k => .write (WindowReg.element n k).offset .w32 e[k.val] :=
  (programEvents_pseudo (.ldm n e)).trans List.map_map

theorem programEvents_stv (n : RegNo) : programEvents [.pseudo (.stv n)] =
    (List.finRange 4).map fun j => .read (WindowReg.lane n j).offset .w32 :=
  (programEvents_pseudo (.stv n)).trans List.map_map

theorem programEvents_stm (n : RegNo) : programEvents [.pseudo (.stm n)] =
    (List.finRange 16).map fun k => .read (WindowReg.element n k).offset .w32 :=
  (programEvents_pseudo (.stm n)).trans List.map_map

/-- The two forms of the encoding function of R61 agree: with the reserved fields 0, the
concatenation is the sum of the shifted fields. -/
theorem wordOfFields_eq_toWord (op : BitVec 8) (idx : ElemIdx) (d a b : RegNo) :
    wordOfFields op.toNat idx.toNat d.toNat a.toNat b.toNat =
      CommandFields.toWord { op := op, idx := idx, d := d, a := a, b := b } := by
  apply BitVec.eq_of_getLsbD_eq
  intro k hk
  simp only [wordOfFields, CommandFields.toWord, BitVec.getLsbD_or, BitVec.getLsbD_shiftLeft,
    BitVec.getLsbD_append, BitVec.ofNat_toNat, BitVec.getLsbD_setWidth]
  interval_cases k <;> simp

/-! ### Performing a list of writes -/

/-- A run begins with one step. -/
theorem run_succ {M : Host.Core} {k : Nat} {s t : M.State} (h : M.step s = .next t) :
    M.run (k + 1) s = M.run k t := by
  rw [Host.Core.run, h]

/-- What writing the elements `v[j]` of a register at the places in `js` makes of its content `w`. -/
def storeAll {k : Nat} (v : Vector Word k) (js : List (Fin k)) (w : Vector Word k) : Vector Word k :=
  js.foldl (fun w j => w.set j.val v[j.val]) w

/-- A place that is written holds the new element, and any other the old one. -/
theorem storeAll_get {k : Nat} (v : Vector Word k) (js : List (Fin k)) (w : Vector Word k)
    (i : Fin k) : (storeAll v js w)[i.val] = if i ∈ js then v[i.val] else w[i.val] := by
  induction js generalizing w with
  | nil => simp [storeAll]
  | cons j js ih =>
    have hstep : storeAll v (j :: js) w = storeAll v js (w.set j.val v[j.val]) := rfl
    rw [hstep, ih, Vector.getElem_set]
    by_cases hij : j = i
    · simp [hij]
    · simp [Fin.val_ne_of_ne hij, Ne.symm hij]

/-- Writing every element leaves nothing of the old content. -/
theorem storeAll_finRange {k : Nat} (v w : Vector Word k) : storeAll v (List.finRange k) w = v := by
  apply Vector.ext
  intro i hi
  simpa using storeAll_get v (List.finRange k) w ⟨i, hi⟩

/-- A run over a list of writes, where `put w p` is the state in which the register written holds `w`
and the accesses `p` are pending: if each step stores one element, the run stores them all. -/
theorem run_stores {k : Nat} {v : Vector Word k} {put : Vector Word k → List BusEvent → State}
    {event : Fin k → BusEvent}
    (hstep : ∀ w j rest, step (put w (event j :: rest)) = .next (put (w.set j.val v[j.val]) rest))
    (js : List (Fin k)) (w : Vector Word k) :
    Sys2Proof.core.run js.length (put w (js.map event)) = .next (put (storeAll v js w) []) := by
  induction js generalizing w with
  | nil => rfl
  | cons j js ih => exact (run_succ (hstep w j (js.map event))).trans (ih (w.set j.val v[j.val]))

/-! ### Loading a vector and a matrix register -/

/-- `s` with `w` in vector register `n` and the accesses `p` still to come. -/
def loadingVector (s : State) (n : RegNo) (w : Vec) (p : List BusEvent) : State :=
  State.setV { s with pending := p } n w

/-- `s` with `w` in matrix register `n` and the accesses `p` still to come. -/
def loadingMatrix (s : State) (n : RegNo) (w : Mat) (p : List BusEvent) : State :=
  State.setM { s with pending := p } n w

/-- The host's write of one lane, performed as the next access (R43). -/
theorem step_loadingVector (s : State) (n : RegNo) (x : Word) (w : Vec) (j : Fin 4)
    (rest : List BusEvent) :
    step (loadingVector s n w (.write (WindowReg.lane n j).offset .w32 x :: rest)) =
      .next (loadingVector s n (w.set j.val x) rest) := by
  have hwrite : step (loadingVector s n w (.write (WindowReg.lane n j).offset .w32 x :: rest)) =
      .next ((loadingVector s n w rest).setLane n j x) :=
    Window.memWrite_of_lane x _ (Window.admittedReg_offset (.lane n j))
  rw [hwrite, loadingVector, State.setLane, State.getV_setV_self, Window.setV_setV]
  rfl

/-- The host's write of one element, performed as the next access (R43). -/
theorem step_loadingMatrix (s : State) (n : RegNo) (x : Word) (w : Mat) (e : Fin 16)
    (rest : List BusEvent) :
    step (loadingMatrix s n w (.write (WindowReg.element n e).offset .w32 x :: rest)) =
      .next (loadingMatrix s n (w.set e.val x) rest) := by
  have hwrite : step (loadingMatrix s n w (.write (WindowReg.element n e).offset .w32 x :: rest)) =
      .next ((loadingMatrix s n w rest).setElem n e x) :=
    Window.memWrite_of_element x _ (Window.admittedReg_offset (.element n e))
  rw [hwrite, loadingMatrix, State.setElem, State.getM_setM_self, Window.setM_setM]
  rfl

section Load

variable {s : State} (hbus : s.pending = [])
include hbus

/-- With an empty bus, issuing a program leaves exactly its accesses pending. -/
theorem issueProgram_of_empty (p : HostProgram) :
    s.issueProgram p = { s with pending := programEvents p } := by
  rw [State.issueProgram, hbus, List.nil_append]

theorem clearBus_of_empty : { s with pending := [] } = s := by rw [← hbus]

/-- The four writes of `LDV`, performed, load the register (R70). -/
theorem run_ldv (n : RegNo) (v : Vec) :
    Sys2Proof.core.run 4 (s.issueProgram [.pseudo (.ldv n v)]) = .next (s.setV n v) := by
  have hstart : s.issueProgram [.pseudo (.ldv n v)] =
      loadingVector s n (s.getV n) (programEvents [.pseudo (.ldv n v)]) :=
    (issueProgram_of_empty hbus _).trans (State.setV_getV _ n).symm
  have hend : loadingVector s n v [] = s.setV n v := by
    rw [loadingVector, clearBus_of_empty hbus]
  have hrun := run_stores (fun w k => step_loadingVector s n v[k.val] w k) (List.finRange 4)
    (s.getV n)
  rw [List.length_finRange, storeAll_finRange, hend] at hrun
  rw [hstart, programEvents_ldv]
  exact hrun

/-- The sixteen writes of `LDM`, in storage order, load the register (R70, R12). -/
theorem run_ldm (n : RegNo) (e : Mat) :
    Sys2Proof.core.run 16 (s.issueProgram [.pseudo (.ldm n e)]) = .next (s.setM n e) := by
  have hstart : s.issueProgram [.pseudo (.ldm n e)] =
      loadingMatrix s n (s.getM n) (programEvents [.pseudo (.ldm n e)]) :=
    (issueProgram_of_empty hbus _).trans (State.setM_getM _ n).symm
  have hend : loadingMatrix s n e [] = s.setM n e := by
    rw [loadingMatrix, clearBus_of_empty hbus]
  have hrun := run_stores (fun w k => step_loadingMatrix s n e[k.val] w k) (List.finRange 16)
    (s.getM n)
  rw [List.length_finRange, storeAll_finRange, hend] at hrun
  rw [hstart, programEvents_ldm]
  exact hrun

end Load

/-- Settles O55: the expansions by their lemmas (`MMOV` in R61's second form), the two loads by
`run_ldv` and `run_ldm`. -/
theorem pseudoInstructionsExpand : Obligations.PseudoInstructionsExpand := by
  refine ⟨fun n v => programEvents_pseudo (.lds n v), programEvents_ldv, programEvents_ldm,
    fun n => programEvents_pseudo (.sts n), programEvents_stv, programEvents_stm,
    programEvents_pseudo .clrerr, fun d a => ?_, fun n v s hbus => run_ldv hbus n v,
    fun n e s hbus => run_ldm hbus n e⟩
  have hword : encode (.mcopy d a) = wordOfFields 0x02 0 d.toNat a.toNat 0 :=
    (wordOfFields_eq_toWord 0x02 0 d a 0).symm
  rw [programEvents_pseudo, ← hword]
  rfl

end Sys2Proof.Proofs.Pseudos
end

section
/-! PROOFS. The commands of 40_fixed_point_mac.md: `NOP`, `SMUL` and `SMAC`. A command is the meaning
of its own word and of no other; `SMUL` and `SMAC` write one scalar register and nothing else. -/

namespace Sys2Proof.Proofs.FixedPointMac

open Sys2Proof.Machine

/-! ### A command and its one word (R60 to R66) -/

/-- The decoder gives back the command whose fields it is shown. -/
theorem decode_fields (i : Instr) : i.fields.decode = .ok i := by
  obtain ⟨hop, hreserved, hunused, hmade⟩ := Instr.fields_spec i
  simp [CommandFields.decode, hop, hreserved, hunused, hmade]

/-- Fields that pass a row's checks are those of the command the row makes of them: the checks leave
nothing in a field that the row does not use. -/
theorem fields_ofFields {f : CommandFields} {m : Mnemonic} (hop : f.op = m.op)
    (hreserved : f.reservedZero = true) (hunused : f.unusedZero m.format = true) :
    (Instr.ofFields m f).fields = f := by
  obtain ⟨op, z0, idx, z1, z2, d, z3, a, z4, b⟩ := f
  cases m <;>
    simp_all [CommandFields.reservedZero, CommandFields.unusedZero, Mnemonic.format,
      Instr.ofFields, Instr.fields]

/-- Fields stand for a command exactly when they are that command's fields. -/
theorem decode_eq_ok_iff_fields (f : CommandFields) (i : Instr) :
    f.decode = .ok i ↔ f = i.fields := by
  constructor
  · intro h
    obtain ⟨m, hrow, hreserved, hunused, rfl⟩ := CommandFields.decode_ok h
    exact (fields_ofFields (Mnemonic.op_of_ofOp hrow).symm hreserved hunused).symm
  · rintro rfl
    exact decode_fields i

/-- A command is the meaning of the word the encoder gives it, and of no other. -/
theorem encodedAs_encode (i : Instr) : EncodedAs i (encode i) := by
  intro v
  have hfields : CommandFields.ofWord (encode i) = i.fields := CommandFields.ofWord_toWord i.fields
  rw [decode, decode_eq_ok_iff_fields, ← hfields, Encoding.ofWord_inj]

/-- A command with these fields is the meaning of the word that the second form of the encoding
function of R61 makes of them. -/
theorem encodedAs_wordOfFields {i : Instr} {op : BitVec 8} {idx : ElemIdx} {d a b : RegNo}
    (h : i.fields = { op := op, idx := idx, d := d, a := a, b := b }) :
    EncodedAs i (wordOfFields op.toNat idx.toNat d.toNat a.toNat b.toNat) := by
  rw [Pseudos.wordOfFields_eq_toWord, ← h]
  exact encodedAs_encode i

/-! ### Commands that write one scalar register -/

/-- What a command that writes `x` to scalar register `d` leaves: `x` there, the rest as before. -/
theorem next_of_exec_setS {i : Instr} {s : State} {d : RegNo} {x : Word}
    (h : exec i s = .next (s.setS d x)) :
    ∃ t, exec i s = .next t ∧ t.getS d = x ∧ SameButScalar d s t :=
  ⟨s.setS d x, h, s.getS_setS_self d x, sameButScalar_setS s d x⟩

/-! ### The arithmetic of the two commands (R14, R15, R18) -/

theorem mul64_eq (a b : Word) : mul64 a b = a.toInt * b.toInt := rfl

/-- One product accumulated onto a widened value, as R82 writes it out. -/
theorem dot_shiftUp_mul64 (sat : Bool) (c a b : Word) :
    dot sat [shiftUp c, mul64 a b] =
      shiftDown sat (wrap64 (c.toInt * 4096 + a.toInt * b.toInt)) := by
  have hsum : [shiftUp c, mul64 a b].sum = c.toInt * 4096 + a.toInt * b.toInt := by
    rw [List.sum_cons, List.sum_singleton, shiftUp_eq, mul64_eq, s32]
  rw [dot, acc64, hsum]

/-! ### The statements -/

/-- Settles O1: 0 is the word the encoder gives `NOP`. -/
theorem nopLeavesEverythingUnchanged : Obligations.NopLeavesEverythingUnchanged := by
  have hword : encode .nop = 0x00000000 := by decide
  exact ⟨hword ▸ encodedAs_encode .nop, exec_nop⟩

/-- Settles O2: `SMUL` is one write of `S[d]`, with the value its equation states. -/
theorem smulWritesTheShiftedProduct : Obligations.SmulWritesTheShiftedProduct := by
  refine fun d a b s => ⟨encodedAs_wordOfFields (op := 0x20) (idx := 0) rfl, ?_⟩
  rw [← mul64_eq]
  exact next_of_exec_setS (exec_smul s d a b)

/-- Settles O3: `SMAC` is one write of `S[d]`, with the value of `dot_shiftUp_mul64`. -/
theorem smacAddsTheProductToTheDestination : Obligations.SmacAddsTheProductToTheDestination := by
  refine fun d a b s => ⟨encodedAs_wordOfFields (op := 0x21) (idx := 0) rfl, ?_⟩
  rw [← dot_shiftUp_mul64]
  exact next_of_exec_setS (exec_smac s d a b)

end Sys2Proof.Proofs.FixedPointMac
end

section
/-! PROOFS. The commands of 41_matrix_basic.md: `MIDENT`, `MCOPY` and `MCMP`. `MIDENT` and `MCOPY`
write one matrix register and nothing else; `MCMP` writes bit 0 of STATUS and nothing else. -/

namespace Sys2Proof.Proofs.MatrixBasic

open Sys2Proof.Machine

/-! ### Commands that write one matrix register -/

/-- What a command that writes `x` to matrix register `d` leaves: the elements of `x` there, given by
`f`, and the rest as before. -/
theorem next_of_exec_setM {i : Instr} {s : State} {d : RegNo} {x : Mat} {f : Fin 16 → Word}
    (h : exec i s = .next (s.setM d x)) (hx : ∀ e : Fin 16, x[e.val] = f e) :
    ∃ t, exec i s = .next t ∧ (∀ e : Fin 16, (t.getM d)[e.val] = f e) ∧ SameButMatrix d s t := by
  refine ⟨s.setM d x, h, fun e => ?_, sameButMatrix_setM s d x⟩
  rw [State.getM_setM_self, hx]

/-- The elements of the identity, as R83 lists them. -/
theorem identityMatrix_get (e : Fin 16) :
    identityMatrix[e.val] = if e.val ∈ [0, 5, 10, 15] then 0x00001000 else 0x00000000 := by
  simp [identityMatrix, one]

/-! ### The comparison and the bit it writes (R85, R26) -/

theorem matricesEqual_iff (A B : Mat) :
    matricesEqual A B = true ↔ ∀ e : Fin 16, A[e.val] = B[e.val] :=
  decide_eq_true_iff

/-- STATUS with bit `bit` made `b`, bit by bit. -/
theorem getLsbD_withStatusBit {i : Nat} (bit : Nat) (b : Bool) (status : Word) (hi : i < 32) :
    (withStatusBit bit b status).getLsbD i = if i = bit then b else status.getLsbD i := by
  have hmask : (1#32 <<< bit).getLsbD i = decide (i = bit) := by
    have hiff : (¬ i < bit ∧ i - bit = 0) ↔ i = bit := by omega
    rw [Bool.eq_iff_iff]
    simpa [BitVec.getLsbD_shiftLeft, hi] using hiff
  cases b with
  | true =>
    rw [withStatusBit, if_pos rfl, BitVec.getLsbD_or, hmask]
    by_cases h : i = bit <;> simp [h]
  | false =>
    rw [withStatusBit, if_neg Bool.false_ne_true, BitVec.getLsbD_and, BitVec.getLsbD_not, hmask]
    by_cases h : i = bit <;> simp [h, hi]

@[simp] theorem eq_setEq (s : State) (b : Bool) : (s.setEq b).eq = b := by
  rw [State.eq, State.setEq_status, getLsbD_withStatusBit _ _ _ (by decide), if_pos rfl]

/-- Writing EQ leaves bits 31..1 of STATUS as they were. -/
theorem upperBits_setEq (s : State) (b : Bool) :
    (s.setEq b).status.extractLsb' 1 31 = s.status.extractLsb' 1 31 := by
  apply BitVec.eq_of_getLsbD_eq
  intro i hi
  have hne : 1 + i ≠ eqBit := by simp [eqBit]
  rw [BitVec.getLsbD_extractLsb', BitVec.getLsbD_extractLsb', State.setEq_status,
    getLsbD_withStatusBit _ _ _ (by omega), if_neg hne]

/-! ### The statements -/

/-- Settles O4: `MIDENT` is one write of `M[d]`, with the elements of `identityMatrix_get`. -/
theorem midentWritesTheIdentity : Obligations.MidentWritesTheIdentity := fun d s =>
  ⟨FixedPointMac.encodedAs_wordOfFields (op := 0x01) (idx := 0) (a := 0) (b := 0) rfl,
    next_of_exec_setM (exec_mident s d) identityMatrix_get⟩

/-- Settles O5: `MCOPY` is one write of `M[d]`; with `d = a` it writes back what `M[d]` holds. -/
theorem mcopyCopiesEveryElement : Obligations.McopyCopiesEveryElement := by
  refine fun d a s => ⟨FixedPointMac.encodedAs_wordOfFields (op := 0x02) (idx := 0) (b := 0) rfl,
    next_of_exec_setM (exec_mcopy s d a) fun _ => rfl, ?_⟩
  rw [exec_mcopy, State.setM_getM]

/-- Settles O6: `MCMP` is one write of EQ, with the value of `matricesEqual_iff`. -/
theorem mcmpReportsEquality : Obligations.McmpReportsEquality := by
  refine fun a b s => ⟨FixedPointMac.encodedAs_wordOfFields (op := 0x03) (idx := 0) (d := 0) rfl,
    ⟨_, exec_mcmp s a b, ?_, upperBits_setEq s _, ⟨rfl, rfl, rfl⟩, ⟨rfl, rfl, rfl⟩⟩,
    ⟨_, exec_mcmp s a a, ?_⟩⟩
  · rw [eq_setEq, matricesEqual_iff]
  · rw [eq_setEq, matricesEqual_iff]
    exact fun _ => rfl

end Sys2Proof.Proofs.MatrixBasic
end

section
/-! PROOFS. The commands of 42_matrix_multiply.md that multiply: `MMUL`, `MVMUL4` and `MVMUL3`. Each
writes one register and nothing else, with values read from the state it starts in; and the product
with the identity is the other factor. -/

namespace Sys2Proof.Proofs.MatrixMultiply

open Sys2Proof.Machine

/-! ### A row of a matrix with a vector (R91, R92) -/

/-- One term of a row with a vector, in the statements' notation. -/
theorem mul64_matAt_lane (A : Mat) (v : Vec) (r c : Fin 4) :
    mul64 (matAt A r c) v[c.val] = elemInt A (r.val + 4 * c.val) * laneInt v c.val := by
  rw [mul64, s32_matAt, laneInt_eq v c.val c.isLt]

/-- The three terms that `MVMUL3` and `MVMUL4` share, summed. -/
theorem sum_rowTerms3 (A : Mat) (v : Vec) (r : Fin 4) :
    (rowTerms3 A v r).sum =
      elemInt A r.val * laneInt v 0 + elemInt A (r.val + 4) * laneInt v 1 +
        elemInt A (r.val + 8) * laneInt v 2 := by
  have h0 : mul64 (matAt A r 0) v[0] = elemInt A r.val * laneInt v 0 := mul64_matAt_lane A v r 0
  have h1 : mul64 (matAt A r 1) v[1] = elemInt A (r.val + 4) * laneInt v 1 :=
    mul64_matAt_lane A v r 1
  have h2 : mul64 (matAt A r 2) v[2] = elemInt A (r.val + 8) * laneInt v 2 :=
    mul64_matAt_lane A v r 2
  rw [rowTerms3, List.sum_cons, List.sum_cons, List.sum_singleton, h0, h1, h2, Int.add_assoc]

/-- A lane of the transformed vector of `MVMUL3` (R92). -/
theorem dot_rowTerms3 (sat : Bool) (A : Mat) (v : Vec) (r : Fin 4) :
    dot sat (rowTerms3 A v r) = shiftDown sat (wrap64
      (elemInt A r.val * laneInt v 0 + elemInt A (r.val + 4) * laneInt v 1 +
        elemInt A (r.val + 8) * laneInt v 2)) := by
  rw [dot, acc64, sum_rowTerms3]

/-- A lane of the transformed vector of `MVMUL4` (R91). -/
theorem dot_rowTerms4 (sat : Bool) (A : Mat) (v : Vec) (r : Fin 4) :
    dot sat (rowTerms3 A v r ++ [mul64 (matAt A r 3) v[3]]) = shiftDown sat (wrap64
      (elemInt A r.val * laneInt v 0 + elemInt A (r.val + 4) * laneInt v 1 +
        elemInt A (r.val + 8) * laneInt v 2 + elemInt A (r.val + 12) * laneInt v 3)) := by
  have hlast : mul64 (matAt A r 3) v[3] = elemInt A (r.val + 12) * laneInt v 3 :=
    mul64_matAt_lane A v r 3
  rw [dot, acc64, List.sum_append, List.sum_singleton, sum_rowTerms3, hlast]

/-! ### The product with the identity (R93) -/

/-- A sum that is exactly a widened 32-bit value comes back as that value, in both modes: it is within
the accumulator and within the thresholds of the shift-down. -/
theorem dot_of_sum_eq_shiftUp {terms : List Int} {x : Word} (sat : Bool)
    (h : terms.sum = shiftUp x) : dot sat terms = x := by
  obtain ⟨hlow, hhigh⟩ := s32_range x
  have hwrap : wrap64 (s32 x * 4096) = s32 x * 4096 :=
    wrap64_of_range (by omega) (by omega)
  rw [dot, acc64, h, shiftUp_eq, hwrap]
  obtain ⟨-, habove, -⟩ | ⟨-, hbelow, -⟩ | ⟨-, heq⟩ := shiftDown_cases sat (s32 x * 4096)
  · omega
  · omega
  · rw [heq, Int.mul_ediv_cancel _ (by decide), s32, BitVec.ofInt_toInt]

/-- If the four products of a row with a column add up to a widened value, the element of the product
is that value. -/
theorem productElement_of_sum {A B : Mat} {r c : Fin 4} {x : Word} (sat : Bool)
    (h : ∑ k, s32 (matAt A r k) * s32 (matAt B k c) = s32 x * 4096) :
    productElement sat A B r c = x := by
  apply dot_of_sum_eq_shiftUp
  rw [shiftUp_eq, ← h, Fin.sum_univ_four]
  simp only [mul64, List.sum_cons, List.sum_nil, Int.add_zero, Int.add_assoc]

/-- The identity's elements are 1 on the diagonal, at accumulator scale, and 0 elsewhere. -/
theorem s32_matAt_resetMatrix (r c : Fin 4) :
    s32 (matAt resetMatrix r c) = if r = c then 4096 else 0 := by
  revert r c
  decide

/-- Of row `r` of the identity with column `c`, the term `k = r` is left. -/
theorem productElement_resetMatrix_left (sat : Bool) (X : Mat) (r c : Fin 4) :
    productElement sat resetMatrix X r c = matAt X r c := by
  apply productElement_of_sum
  simp only [s32_matAt_resetMatrix, ite_mul, zero_mul, Finset.sum_ite_eq, Finset.mem_univ, if_true]
  exact Int.mul_comm _ _

/-- Of row `r` with column `c` of the identity, the term `k = c` is left. -/
theorem productElement_resetMatrix_right (sat : Bool) (X : Mat) (r c : Fin 4) :
    productElement sat X resetMatrix r c = matAt X r c := by
  apply productElement_of_sum
  simp only [s32_matAt_resetMatrix, mul_ite, mul_zero, Finset.sum_ite_eq', Finset.mem_univ, if_true]

/-- `MMUL` leaves `X` in `M[d]` if every element of the product is that of `X`. -/
theorem next_of_exec_mmul {d a : RegNo} {s : State} {X : Mat}
    (h : ∀ r c, productElement s.config.saturate (s.getM d) (s.getM a) r c = matAt X r c) :
    ∃ t, exec (.mmul d a) s = .next t ∧ t.getM d = X := by
  refine ⟨_, exec_mmul s d a, ?_⟩
  rw [State.getM_setM_self]
  exact mat_ext fun r c => (matAt_matOf _ r c).trans (h r c)

/-! ### The statements -/

/-- Settles O7: `MMUL` is one write of `M[d]`, with the elements of `productElement_eq`. -/
theorem mmulWritesTheProduct : Obligations.MmulWritesTheProduct := by
  refine fun d a s => ⟨FixedPointMac.encodedAs_wordOfFields (op := 0x10) (idx := 0) (b := 0) rfl,
    MatrixBasic.next_of_exec_setM (exec_mmul s d a) fun e => ?_⟩
  rw [matOf_get _ e.val e.isLt, productElement_eq]

/-- Settles O8: `MVMUL4` is one write of `V[d]`, with the lanes of `dot_rowTerms4`. -/
theorem mvmul4WritesTheTransformedVector : Obligations.Mvmul4WritesTheTransformedVector := by
  refine fun d a s => ⟨FixedPointMac.encodedAs_wordOfFields (op := 0x11) (idx := 0) (b := 0) rfl,
    _, exec_mvmul4 s d a, fun r => ?_, sameButVector_setV s d _⟩
  rw [State.getV_setV_self, vecOf_get, dot_rowTerms4]

/-- Settles O9: `MVMUL3` is one write of `V[d]`, with the lanes of `dot_rowTerms3` and the old
lane 3. -/
theorem mvmul3KeepsTheFourthLane : Obligations.Mvmul3KeepsTheFourthLane := by
  refine fun d a s => ⟨FixedPointMac.encodedAs_wordOfFields (op := 0x12) (idx := 0) (b := 0) rfl,
    _, exec_mvmul3 s d a, fun r hr => ?_, ?_, sameButVector_setV s d _⟩
  · rw [State.getV_setV_self, vecOf_get, if_pos hr, dot_rowTerms3]
  · rw [State.getV_setV_self, vecOf_get, if_neg (by decide)]

/-- Settles O18: on each side, the identity picks out one term of every sum. -/
theorem mmulByIdentityIsExact : Obligations.MmulByIdentityIsExact := by
  refine fun d a X s => ⟨fun hd ha => ?_, fun hd ha => ?_⟩
  · apply next_of_exec_mmul
    rw [hd, ha]
    exact productElement_resetMatrix_left _ X
  · apply next_of_exec_mmul
    rw [hd, ha]
    exact productElement_resetMatrix_right _ X

end Sys2Proof.Proofs.MatrixMultiply
end

section
/-! PROOFS. The commands of 43_scale_translate.md, one statement each: `MSCALE` and `MTRANS`. Each
writes one matrix register and nothing else, with elements read from the state it starts in; the
elements outside the columns it updates are written back as they were. -/

namespace Sys2Proof.Proofs.ScaleTranslate

open Sys2Proof.Machine

/-! ### Elements by row and column (R12) -/

/-- Element `e` stands in row `e % 4` and column `e / 4`. -/
theorem matAt_mod_div (A : Mat) (e : Nat) (h : e < 16) :
    matAt A ⟨e % 4, by omega⟩ ⟨e / 4, by omega⟩ = A[e] := by
  simp only [matAt, Nat.mod_add_div]

/-- Element `12 + r` stands in row `r` of column 3. -/
theorem elemInt_column3 (A : Mat) (r : Fin 4) : elemInt A (12 + r.val) = s32 (matAt A r 3) := by
  rw [Nat.add_comm]
  exact (s32_matAt A r 3).symm

/-! ### The values the two commands write -/

/-- An element scaled by the lane of its column (R95). -/
theorem mul64_element_lane (A : Mat) (v : Vec) (e : Nat) (h : e < 16) :
    mul64 (matAt A ⟨e % 4, by omega⟩ ⟨e / 4, by omega⟩) v[e / 4] =
      elemInt A e * laneInt v (e / 4) := by
  rw [matAt_mod_div A e h, mul64, elemInt_eq A e h, laneInt_eq v (e / 4) (by omega)]

/-- A row of the translated column 3: the terms that `MVMUL3` sums, and the old element widened
(R96). -/
theorem dot_rowTerms3_shiftUp (sat : Bool) (A : Mat) (v : Vec) (r : Fin 4) :
    dot sat (rowTerms3 A v r ++ [shiftUp (matAt A r 3)]) = shiftDown sat (wrap64
      (elemInt A r.val * laneInt v 0 + elemInt A (r.val + 4) * laneInt v 1 +
        elemInt A (r.val + 8) * laneInt v 2 + elemInt A (12 + r.val) * 4096)) := by
  rw [dot, acc64, List.sum_append, List.sum_singleton, MatrixMultiply.sum_rowTerms3, shiftUp_eq,
    elemInt_column3]

/-! ### The statements -/

/-- Settles O10: `MSCALE` is one write of `M[d]`; elements 0..11 are those in columns 0..2. -/
theorem mscaleScalesThreeColumns : Obligations.MscaleScalesThreeColumns := by
  refine fun d a s => ⟨FixedPointMac.encodedAs_wordOfFields (op := 0x13) (idx := 0) (b := 0) rfl,
    MatrixBasic.next_of_exec_setM (exec_mscale s d a) fun e => ?_⟩
  rw [matOf_get _ e.val e.isLt]
  by_cases he : e.val < 12
  · have hcol : e.val / 4 < 3 := by omega
    rw [if_pos hcol, if_pos he, mul64_element_lane _ _ e.val e.isLt]
  · have hcol : ¬ e.val / 4 < 3 := by omega
    rw [if_neg hcol, if_neg he, matAt_mod_div _ e.val e.isLt]

/-- Settles O11: `MTRANS` is one write of `M[d]`; column 3 has the values of
`dot_rowTerms3_shiftUp`, and elements 0..11 are not in column 3. -/
theorem mtransUpdatesTheFourthColumn : Obligations.MtransUpdatesTheFourthColumn := by
  refine fun d a s => ⟨FixedPointMac.encodedAs_wordOfFields (op := 0x14) (idx := 0) (b := 0) rfl,
    _, exec_mtrans s d a, fun r => ?_, fun e he => ?_, sameButMatrix_setM s d _⟩
  · have hcol : (3 : Fin 4).val = 3 := rfl
    rw [State.getM_setM_self, elemInt_column3 (matOf _), matAt_matOf, if_pos hcol,
      dot_rowTerms3_shiftUp, s32]
  · have hcol : ¬ e.val / 4 = 3 := by omega
    rw [State.getM_setM_self, matOf_get _ e.val e.isLt, if_neg hcol, matAt_mod_div _ e.val e.isLt]

end Sys2Proof.Proofs.ScaleTranslate
end

section
/-! PROOFS. The commands of 44_dot_product.md: `MGETIDX` and `VDOT4`. Each writes one scalar register
and nothing else, with one four-term sum; that of `MGETIDX` is an element of the product that `MMUL`
forms. -/

namespace Sys2Proof.Proofs.DotProduct

open Sys2Proof.Machine

/-! ### The row and the column an immediate names (R12, R63) -/

/-- The low two bits of `idx` are its row. -/
theorem rowOf_indexOf (idx : ElemIdx) :
    (rowOf (indexOf idx)).val = (idx.extractLsb' 0 2).toNat := by
  rw [BitVec.extractLsb'_toNat, Nat.shiftRight_zero]
  rfl

/-- The high two bits of `idx` are its column; there is nothing above them to cut off. -/
theorem colOf_indexOf (idx : ElemIdx) :
    (colOf (indexOf idx)).val = (idx.extractLsb' 2 2).toNat := by
  have hcol : idx.toNat / 2 ^ 2 < 2 ^ 2 := by omega
  rw [BitVec.extractLsb'_toNat, Nat.shiftRight_eq_div_pow, Nat.mod_eq_of_lt hcol]
  rfl

/-! ### The values the two commands write -/

/-- The element `MGETIDX` forms, over the sum the statement writes (R100). -/
theorem productElement_indexOf (sat : Bool) (A B : Mat) (idx : ElemIdx) :
    productElement sat A B (rowOf (indexOf idx)) (colOf (indexOf idx)) =
      shiftDown sat
        (productSum A B (idx.extractLsb' 0 2).toNat (idx.extractLsb' 2 2).toNat) := by
  rw [productElement_eq, rowOf_indexOf, colOf_indexOf]

/-- The product of one lane of two vectors, in the statement's notation. -/
theorem mul64_lane_lane (p q : Vec) (j : Nat) (h : j < 4) :
    mul64 p[j] q[j] = laneInt p j * laneInt q j := by
  rw [mul64, laneInt_eq p j h, laneInt_eq q j h]

/-- The dot product of two vectors, over the sum the statement writes (R101). -/
theorem dot_lanes (sat : Bool) (p q : Vec) :
    dot sat [mul64 p[0] q[0], mul64 p[1] q[1], mul64 p[2] q[2], mul64 p[3] q[3]] =
      shiftDown sat (wrap64 (laneInt p 0 * laneInt q 0 + laneInt p 1 * laneInt q 1 +
        laneInt p 2 * laneInt q 2 + laneInt p 3 * laneInt q 3)) := by
  simp only [dot, acc64, mul64_lane_lane, List.sum_cons, List.sum_nil, Int.add_zero, Int.add_assoc]

/-! ### The statements -/

/-- Settles O12: `MGETIDX` is one write of `S[d]`, with the value of `productElement_indexOf`. -/
theorem mgetidxWritesOneProductElement : Obligations.MgetidxWritesOneProductElement := by
  refine fun d a b idx s => ⟨FixedPointMac.encodedAs_wordOfFields (op := 0x15) (idx := idx) rfl, ?_⟩
  rw [← productElement_indexOf]
  exact FixedPointMac.next_of_exec_setS (exec_mgetidx s d a b idx)

/-- Settles O13: `VDOT4` is one write of `S[d]`, with the value of `dot_lanes`. -/
theorem vdot4WritesTheDotProduct : Obligations.Vdot4WritesTheDotProduct := by
  refine fun d a b s => ⟨FixedPointMac.encodedAs_wordOfFields (op := 0x16) (idx := 0) rfl, ?_⟩
  rw [← dot_lanes]
  exact FixedPointMac.next_of_exec_setS (exec_vdot4 s d a b)

/-- Settles O21: element `idx` of what `MMUL` writes is the product element in the row and the column
that `MGETIDX` reads off `idx`, of the same factors in the same mode. -/
theorem mgetidxIsAnElementOfMmul : Obligations.MgetidxIsAnElementOfMmul := by
  intro e a b d x idx s u hconfig hleft hright
  refine ⟨_, _, exec_mgetidx s e a b idx, exec_mmul u d x, ?_⟩
  rw [State.getS_setS_self, State.getM_setM_self, matOf_get _ idx.toNat idx.isLt, hconfig, hleft,
    hright]
  rfl

end Sys2Proof.Proofs.DotProduct
end

section
/-! PROOFS. The exceptions of 60_exceptions.md: what recording an error does to STATUS, which accesses
record one, and that one access records at most one. -/

namespace Sys2Proof.Proofs.Exceptions

open Sys2Proof.Machine

/-! ### What recording an error does to STATUS (R110, R111) -/

section Raise

variable (s : State) (c : ErrorCause)

/-- The STATUS bit of the error is 1, and every other bit as before. -/
theorem getLsbD_raise_status {i : Nat} (hi : i < 32) :
    (s.raise c).status.getLsbD i = if i = c.code then true else s.status.getLsbD i := by
  rw [State.raise_status, MatrixBasic.getLsbD_withStatusBit _ _ _ hi]

@[simp] theorem ill_raise_illegalCommand : (s.raise .illegalCommand).ill = true :=
  getLsbD_raise_status s .illegalCommand (by decide)

@[simp] theorem busErr_raise_illegalCommand : (s.raise .illegalCommand).busErr = s.busErr :=
  getLsbD_raise_status s .illegalCommand (by decide)

@[simp] theorem ill_raise_busError : (s.raise .busError).ill = s.ill :=
  getLsbD_raise_status s .busError (by decide)

@[simp] theorem eq_raise : (s.raise c).eq = s.eq := by
  have hne : eqBit ≠ c.code := by cases c <;> decide
  rw [State.eq, getLsbD_raise_status s c (by decide), if_neg hne, State.eq]

@[simp] theorem reservedStatusBits_raise :
    reservedStatusBits (s.raise c).status = reservedStatusBits s.status := by
  have hcode : c.code < 3 := by cases c <;> decide
  apply BitVec.eq_of_getLsbD_eq
  intro i hi
  have hne : 3 + i ≠ c.code := by omega
  rw [reservedStatusBits, reservedStatusBits, BitVec.getLsbD_extractLsb', BitVec.getLsbD_extractLsb',
    getLsbD_raise_status s c (by omega), if_neg hne]

end Raise

/-! ### CMD writes of illegal words (R110) -/

theorem execute_of_not_legal {w : Word} (h : legal w = false) (s : State) :
    execute w s = .next (s.raise .illegalCommand) :=
  (Encoding.illegalWordsOnlySetIll w s).2 h

/-- The converse of `Encoding.decode_of_not_legal`: a word of the table decodes. -/
theorem not_legal_of_decode_error {w : Word} {x : Illegal} (h : decode w = .error x) :
    legal w = false := by
  rw [← Bool.not_eq_true, Encoding.legal_iff_row]
  rintro ⟨m, hrow⟩
  obtain ⟨i, hdec, -⟩ := (Encoding.and_maskWord_iff_decode w m).mp hrow
  rw [h] at hdec
  cases hdec

/-- The host's write of a command word, performed as the next access, executes the word (R31). -/
theorem step_of_cmd_write {s : State} {w : Word} {rest : List BusEvent}
    (hp : s.pending = .write 0x00C .w32 w :: rest) :
    step s = execute w { s with pending := rest } := by
  simp only [step, hp]
  exact Window.memWrite_of_cmd w _ (Window.admittedReg_offset .cmd)

/-- Settles O40: the step executes the word, which records an illegal command; recording it is one
write of STATUS, whose other bits are those of the lemmas above. -/
theorem stepRecordsAnIllegalCommand : Obligations.StepRecordsAnIllegalCommand := by
  intro s w rest hp hw
  exact ⟨_, (step_of_cmd_write hp).trans (execute_of_not_legal hw _), ill_raise_illegalCommand _,
    eq_raise _ _, busErr_raise_illegalCommand _, reservedStatusBits_raise _ _, ⟨rfl, rfl, rfl⟩,
    rfl, rfl, rfl⟩

/-! ### What a step does to the error bits (R113) -/

/-- Writing STATUS sets no bit of it (R26). -/
theorem getLsbD_of_writeOneToClear {status v : Word} {i : Nat}
    (h : (writeOneToClear status v).getLsbD i = true) : status.getLsbD i = true := by
  rw [writeOneToClear_eq, BitVec.getLsbD_and, Bool.and_eq_true] at h
  exact h.left

/-- Writing EQ leaves the error bits as they were (R85). -/
theorem getLsbD_code_withStatusBit_eqBit (c : ErrorCause) (q : Bool) (status : Word) :
    (withStatusBit eqBit q status).getLsbD c.code = status.getLsbD c.code := by
  have hcode : c.code < 32 ∧ c.code ≠ eqBit := by cases c <;> decide
  obtain ⟨hlt, hne⟩ := hcode
  rw [MatrixBasic.getLsbD_withStatusBit _ _ _ hlt, if_neg hne]

/-- A step sets no error bit, or performs a CMD write of an illegal word and records that, or performs
an access the window does not admit and records that. -/
theorem step_error_cases {s t : State} (h : step s = .next t) :
    (∀ c : ErrorCause, t.status.getLsbD c.code = true → s.status.getLsbD c.code = true) ∨
    (t.status = (s.raise .illegalCommand).status ∧
      ∃ w rest, s.pending = .write 0x00C .w32 w :: rest ∧ legal w = false) ∨
    (t.status = (s.raise .busError).status ∧
      ∃ off n rest, admitted off n = false ∧
        (s.pending = .read off n :: rest ∨ ∃ v, s.pending = .write off n v :: rest)) := by
  obtain ⟨-, rfl⟩ | ⟨e, rest, hp, -, -, hstep⟩ := step_inversion h
  · exact .inl fun _ => id
  obtain ⟨hst, -⟩ | ⟨-, hst⟩ | ⟨hst, off, n, hadm, he⟩ | ⟨w, hst, rfl, x, hdec⟩ | ⟨v, hst, -⟩ |
    ⟨w, a, b, q, hst, -⟩ := hstep
  · exact .inl fun c hc => hst ▸ hc
  · exact .inl fun c hc => by simp [hst] at hc
  · refine .inr (.inr ⟨hst, off, n, rest, hadm, ?_⟩)
    obtain rfl | ⟨v, rfl⟩ := he
    · exact .inl hp
    · exact .inr ⟨v, hp⟩
  · exact .inr (.inl ⟨hst, w, rest, hp, not_legal_of_decode_error hdec⟩)
  · exact .inl fun c hc => getLsbD_of_writeOneToClear (hst ▸ hc)
  · exact .inl fun c hc => by rwa [hst, getLsbD_code_withStatusBit_eqBit] at hc

/-- Settles O51: of the three cases of `step_error_cases`, only the one that records an error newly
sets its bit, and it leaves the other error's bit as it was. -/
theorem oneAccessRaisesAtMostOneError : Obligations.OneAccessRaisesAtMostOneError := by
  intro s t h
  obtain hkeep | ⟨hst, w, rest, hp, hw⟩ | ⟨hst, off, n, rest, hadm, hp⟩ := step_error_cases h
  · refine ⟨fun ⟨hclear, hset⟩ => ?_, fun ⟨hclear, hset⟩ => ?_⟩
    · exact absurd (hkeep .illegalCommand hset) (ne_true_of_eq_false hclear)
    · exact absurd (hkeep .busError hset) (ne_true_of_eq_false hclear)
  · have hbus : t.busErr = s.busErr := by
      rw [State.busErr, hst]
      exact busErr_raise_illegalCommand s
    refine ⟨fun _ => ⟨w, rest, hp, hw, hbus⟩, fun ⟨hclear, hset⟩ => ?_⟩
    rw [hbus, hclear] at hset
    cases hset
  · have hill : t.ill = s.ill := by
      rw [State.ill, hst]
      exact ill_raise_busError s
    refine ⟨fun ⟨hclear, hset⟩ => ?_, fun _ => ⟨off, n, rest, hadm, hill, hp⟩⟩
    rw [hill, hclear] at hset
    cases hset

end Sys2Proof.Proofs.Exceptions
end

section
/-! PROOFS. The decoder and the encoder of R60 to R66 undo each other, on every command and on every
word that decodes. -/

namespace Sys2Proof.Proofs.RoundTrip

/-- The decoder reads a command back from its word (R61, R66). -/
theorem decode_encode (i : Instr) : decode (encode i) = .ok i :=
  (FixedPointMac.encodedAs_encode i (encode i)).mpr rfl

/-- A word that decodes is the word of the command it decodes to. -/
theorem encode_of_decode {w : Word} {i : Instr} (h : decode w = .ok i) : encode i = w :=
  ((FixedPointMac.encodedAs_encode i w).mp h).symm

/-- At 32 bits the host's view of the decoder is the decoder: nothing of the word is cut off (R60). -/
theorem decodeTableWord_toNat (w : Word) : decodeTableWord 32 w.toNat = (decode w).toOption := by
  rw [decodeTableWord, Nat.mod_eq_of_lt w.isLt, BitVec.ofNat_toNat, BitVec.setWidth_eq]

/-- Settles O25: the checks of R63 by `instr_wellFormed`, the two views of the decoder by
`decode_encode`. -/
theorem decodeInvertsEncode : Obligations.DecodeInvertsEncode := by
  refine fun i => ⟨instr_wellFormed i, decode_encode i, ?_⟩
  rw [decodeTableWord_toNat, decode_encode]
  rfl

/-- Settles O26: a command is the meaning of its own word and of no other. -/
theorem encodeInvertsDecode : Obligations.EncodeInvertsDecode :=
  fun _ _ => encode_of_decode

/-- Settles O29, by running the decoder on each of the ten words. -/
theorem listedWordsDecode : Obligations.ListedWordsDecode := by
  refine ⟨?_, ?_, ?_, ?_, ?_, ?_, ?_, ?_, ?_, ?_⟩ <;> decide

end Sys2Proof.Proofs.RoundTrip
end

section
/-! PROOFS. The bits of STATUS from step to step (R26, R113, R114): one lemma says which events can
change a bit, and each statement about EQ, the error bits or the reserved bits is that lemma at its own
bits. -/

namespace Sys2Proof.Proofs.StatusBits

open Sys2Proof.Machine

/-! ### Which events can change a bit -/

/-- `MayLeaveBit e i b`: a step that performs `e` may change bit `i` of STATUS, to `b` (R26). -/
inductive MayLeaveBit : BusEvent → Nat → Bool → Prop where
  /-- A reset clears every bit (R33). -/
  | reset (i : Nat) : MayLeaveBit .reset i false
  /-- What is not clean sets the bit of an error (R110, R111). -/
  | error {e : BusEvent} (c : ErrorCause) (he : e.clean = false) : MayLeaveBit e c.code true
  /-- A write of STATUS clears the bits of errors that are set in the word written. -/
  | clear {v : Word} (c : ErrorCause) (hv : v.getLsbD c.code = true) :
      MayLeaveBit (.write 0x008 .w32 v) c.code false
  /-- A compare writes EQ (R85). -/
  | compare {w : Word} {a b : RegNo} (q : Bool) (hw : decode w = .ok (.mcmp a b)) :
      MayLeaveBit (.write 0x00C .w32 w) eqBit q

section Bits

variable {i : Nat} (hi : i < 32)
include hi

theorem raise_bit (s : State) (c : ErrorCause) {e : BusEvent} (he : e.clean = false) :
    (s.raise c).status.getLsbD i = s.status.getLsbD i ∨
      MayLeaveBit e i ((s.raise c).status.getLsbD i) := by
  rw [Exceptions.getLsbD_raise_status s c hi]
  by_cases hc : i = c.code
  · rw [if_pos hc, hc]
    exact .inr (.error c he)
  · exact .inl (if_neg hc)

theorem writeOneToClear_bit (status v : Word) :
    (writeOneToClear status v).getLsbD i = status.getLsbD i ∨
      MayLeaveBit (.write 0x008 .w32 v) i ((writeOneToClear status v).getLsbD i) := by
  rw [writeOneToClear_eq, BitVec.getLsbD_and, BitVec.getLsbD_not, BitVec.getLsbD_and]
  by_cases hc : ∃ c : ErrorCause, i = c.code
  · obtain ⟨c, rfl⟩ := hc
    cases hv : v.getLsbD c.code with
    | false => exact .inl (by simp [hi])
    | true =>
      have hmask : (0x00000006 : Word).getLsbD c.code = true := by cases c <;> rfl
      rw [hmask, Bool.and_self, Bool.not_true, Bool.and_false, Bool.and_false]
      exact .inr (.clear c hv)
  · have h1 : i ≠ 1 := fun h => hc ⟨.illegalCommand, h⟩
    have h2 : i ≠ 2 := fun h => hc ⟨.busError, h⟩
    have hmask : (0x00000006 : Word).getLsbD i = false := by interval_cases i <;> trivial
    exact .inl (by rw [hmask]; simp [hi])

theorem withStatusBit_eqBit_bit (status : Word) (q : Bool) {w : Word} {a b : RegNo}
    (hw : decode w = .ok (.mcmp a b)) :
    (withStatusBit eqBit q status).getLsbD i = status.getLsbD i ∨
      MayLeaveBit (.write 0x00C .w32 w) i ((withStatusBit eqBit q status).getLsbD i) := by
  rw [MatrixBasic.getLsbD_withStatusBit _ _ _ hi]
  by_cases hq : i = eqBit
  · rw [if_pos hq, hq]
    exact .inr (.compare q hw)
  · exact .inl (if_neg hq)

end Bits

/-! ### Clean events (R113) -/

theorem clean_read (off : Offset) (n : AccessWidth) :
    (BusEvent.read off n).clean = admitted off n := rfl

theorem clean_write_of_not_admitted {off : Offset} {n : AccessWidth} (v : Word)
    (h : admitted off n = false) : (BusEvent.write off n v).clean = false := by
  rw [BusEvent.clean, Window.admittedReg_of_not_admitted (ne_true_of_eq_false h)]

theorem clean_cmd_write (w : Word) : (BusEvent.write 0x00C .w32 w).clean = legal w := by
  have hcmd : admittedReg 0x00C .w32 = some .cmd := Window.admittedReg_offset .cmd
  rw [BusEvent.clean, hcmd]

/-! ### The bits after a step -/

/-- A step leaves a bit of STATUS as it was, or performs an event that may change that bit. -/
theorem step_statusBit {s t : State} {i : Nat} (hi : i < 32) (h : step s = .next t) :
    t.status.getLsbD i = s.status.getLsbD i ∨
      ∃ e rest, s.pending = e :: rest ∧ MayLeaveBit e i (t.status.getLsbD i) := by
  obtain ⟨-, rfl⟩ | ⟨e, rest, hp, -, -, hstep⟩ := step_inversion h
  · exact .inl rfl
  suffices hbit : t.status.getLsbD i = s.status.getLsbD i ∨ MayLeaveBit e i (t.status.getLsbD i) from
    hbit.imp_right fun hmay => ⟨e, rest, hp, hmay⟩
  obtain ⟨hst, -⟩ | ⟨rfl, hst⟩ | ⟨hst, off, n, hadm, he⟩ | ⟨w, hst, rfl, x, hdec⟩ | ⟨v, hst, rfl⟩ |
    ⟨w, a, b, q, hst, rfl, hdec⟩ := hstep
  · exact .inl (by rw [hst])
  · have hzero : (0 : Word).getLsbD i = false := BitVec.getLsbD_zero
    rw [hst, hzero]
    exact .inr (.reset i)
  · have hclean : e.clean = false := by
      obtain rfl | ⟨v, rfl⟩ := he
      · rw [clean_read, hadm]
      · exact clean_write_of_not_admitted v hadm
    rw [hst]
    exact raise_bit hi s .busError hclean
  · rw [hst]
    refine raise_bit hi s .illegalCommand ?_
    rw [clean_cmd_write, Exceptions.not_legal_of_decode_error hdec]
  · rw [hst]
    exact writeOneToClear_bit hi s.status v
  · rw [hst]
    exact withStatusBit_eqBit_bit hi s.status q hdec

/-! ### The reserved bits (R26) -/

/-- The invariant, bit by bit. -/
theorem inv_iff (s : State) : s.Inv ↔ ∀ i < 32, 3 ≤ i → s.status.getLsbD i = false := by
  rw [State.Inv, reservedStatusBits]
  constructor
  · intro h i hi h3
    have hbit := congrArg (BitVec.getLsbD · (i - 3)) h
    simpa [BitVec.getLsbD_extractLsb', Nat.add_sub_cancel' h3, show i - 3 < 29 by omega] using hbit
  · intro h
    apply BitVec.eq_of_getLsbD_eq
    intro i hi
    have hzero : (0 : BitVec 29).getLsbD i = false := BitVec.getLsbD_zero
    rw [BitVec.getLsbD_extractLsb', h (3 + i) (by omega) (by omega), Bool.and_false, hzero]

/-- Settles O45: of the events that may change a bit, only a reset may change a reserved one, and it
clears it. -/
theorem everyStepKeepsReservedStatusBitsZero :
    Obligations.EveryStepKeepsReservedStatusBitsZero := by
  intro s t hinv h
  rw [inv_iff] at hinv ⊢
  intro i hi h3
  obtain hsame | ⟨e, rest, -, hmay⟩ := step_statusBit hi h
  · rw [hsame, hinv i hi h3]
  · have hcode (c : ErrorCause) : c.code < 3 := by cases c <;> decide
    generalize t.status.getLsbD i = b at hmay ⊢
    cases hmay with
    | reset => rfl
    | error c => exact absurd h3 (Nat.not_le_of_lt (hcode c))
    | clear c => exact absurd h3 (Nat.not_le_of_lt (hcode c))
    | compare => exact absurd h3 (by decide)

/-- Settles O44: STATUS is 0 at reset. -/
theorem resetMeetsTheInvariant : Obligations.ResetMeetsTheInvariant :=
  ⟨by decide, fun _ => show reservedStatusBits 0 = 0 by decide⟩

/-! ### EQ and the error bits -/

/-- Settles O49: of the events that may change bit 0, a reset and a compare are the two left, for an
error has another bit. -/
theorem onlyCompareChangesEq : Obligations.OnlyCompareChangesEq := by
  intro s t h hne
  obtain hsame | ⟨e, rest, hp, hmay⟩ := step_statusBit (i := eqBit) (by decide) h
  · exact absurd hsame hne
  · refine ⟨e, rest, hp, ?_⟩
    generalize hi : eqBit = i at hmay
    generalize t.status.getLsbD i = b at hmay
    cases hmay with
    | reset => exact .inl rfl
    | error c => cases c <;> cases hi
    | clear c => cases c <;> cases hi
    | compare q hw => exact .inr ⟨_, _, _, rfl, hw⟩

/-- A step that clears the bit of an error performs a reset or a clearing write of that bit (R114). -/
theorem step_clears_error {s t : State} (c : ErrorCause) (h : step s = .next t)
    (hset : s.status.getLsbD c.code = true) (hclear : t.status.getLsbD c.code = false) :
    ∃ e rest, s.pending = e :: rest ∧
      (e = .reset ∨ ∃ v, e = .write 0x008 .w32 v ∧ v.getLsbD c.code = true) := by
  have hi : c.code < 32 := by cases c <;> decide
  obtain hsame | ⟨e, rest, hp, hmay⟩ := step_statusBit hi h
  · rw [hsame, hset] at hclear
    cases hclear
  · refine ⟨e, rest, hp, ?_⟩
    rw [hclear] at hmay
    generalize hcode : c.code = i at hmay
    cases hmay with
    | reset => exact .inl rfl
    | clear c' hv => exact .inr ⟨_, rfl, hv⟩
    | compare => cases c <;> cases hcode

/-- Settles O50: `step_clears_error` at each of the two bits. -/
theorem errorBitsStaySetUntilCleared : Obligations.ErrorBitsStaySetUntilCleared := by
  refine fun s t h => ⟨fun ⟨hset, hclear⟩ => ?_, fun ⟨hset, hclear⟩ => ?_⟩
  · exact step_clears_error .illegalCommand h hset hclear
  · exact step_clears_error .busError h hset hclear

/-! ### Clean traffic (R113) -/

theorem errorFree_iff (s : State) :
    s.errorFree = true ↔ ∀ c : ErrorCause, s.status.getLsbD c.code = false := by
  rw [State.errorFree, Bool.and_eq_true, Bool.not_eq_true', Bool.not_eq_true', State.ill, State.busErr]
  refine ⟨fun ⟨hill, hbus⟩ c => ?_, fun h => ⟨h .illegalCommand, h .busError⟩⟩
  cases c with
  | illegalCommand => exact hill
  | busError => exact hbus

/-- A step that performs a clean event, or none, records no error. -/
theorem step_errorFree {s t : State} (h : step s = .next t) (hfree : s.errorFree = true)
    (hclean : ∀ e ∈ s.pending, e.clean = true) : t.errorFree = true := by
  rw [errorFree_iff] at hfree ⊢
  intro c
  have hi : c.code < 32 := by cases c <;> decide
  obtain hsame | ⟨e, rest, hp, hmay⟩ := step_statusBit hi h
  · rw [hsame, hfree c]
  · have he : e.clean = true := hclean e (hp ▸ List.mem_cons_self)
    generalize hcode : c.code = i at hmay ⊢
    generalize t.status.getLsbD i = b at hmay ⊢
    cases hmay with
    | reset | clear => rfl
    | error c' hbad => rw [he] at hbad; cases hbad
    | compare => cases c <;> cases hcode

end Sys2Proof.Proofs.StatusBits
end

section
/-! PROOFS. What every command and every step does, whatever the state: it answers a next state; a
command writes its destinations only and leaves the parameter and the bus alone; a step performs one
access (R9, R31, R46, R108, R112). -/

namespace Sys2Proof.Proofs.Frames

open Sys2Proof.Machine

/-! ### Every command and every step answers a next state (R108, R112) -/

theorem exec_total (i : Instr) (s : State) : ∃ t, exec i s = .next t := by
  cases i with
  | nop => exact ⟨_, exec_nop s⟩
  | mident d => exact ⟨_, exec_mident s d⟩
  | mcopy d a => exact ⟨_, exec_mcopy s d a⟩
  | mcmp a b => exact ⟨_, exec_mcmp s a b⟩
  | mmul d a => exact ⟨_, exec_mmul s d a⟩
  | mvmul4 d a => exact ⟨_, exec_mvmul4 s d a⟩
  | mvmul3 d a => exact ⟨_, exec_mvmul3 s d a⟩
  | mscale d a => exact ⟨_, exec_mscale s d a⟩
  | mtrans d a => exact ⟨_, exec_mtrans s d a⟩
  | mgetidx d a b idx => exact ⟨_, exec_mgetidx s d a b idx⟩
  | vdot4 d a b => exact ⟨_, exec_vdot4 s d a b⟩
  | smul d a b => exact ⟨_, exec_smul s d a b⟩
  | smac d a b => exact ⟨_, exec_smac s d a b⟩

theorem execute_of_error {w : Word} {x : Illegal} (h : decode w = .error x) (s : State) :
    execute w s = .next (s.raise .illegalCommand) := by rw [execute, h]

theorem execute_total (w : Word) (s : State) : ∃ t, execute w s = .next t := by
  cases hdec : decode w with
  | error x => exact ⟨_, execute_of_error hdec s⟩
  | ok i =>
    rw [Window.execute_of_decode hdec]
    exact exec_total i s

theorem memWrite_total (off : Offset) (n : AccessWidth) (v : Word) (s : State) :
    ∃ t, memWrite off n v s = .next t := by
  cases hreg : admittedReg off n with
  | none => exact ⟨_, Window.memWrite_of_none v s hreg⟩
  | some r =>
    cases r with
    | id => exact ⟨_, Window.memWrite_of_constant v s (.inl hreg)⟩
    | cfg => exact ⟨_, Window.memWrite_of_constant v s (.inr hreg)⟩
    | status => exact ⟨_, Window.memWrite_of_status v s hreg⟩
    | cmd =>
      rw [Window.memWrite_of_cmd v s hreg]
      exact execute_total v s
    | scalar i => exact ⟨_, Window.memWrite_of_scalar v s hreg⟩
    | lane i j => exact ⟨_, Window.memWrite_of_lane v s hreg⟩
    | element i e => exact ⟨_, Window.memWrite_of_element v s hreg⟩

theorem perform_total (e : BusEvent) (s : State) : ∃ t, perform e s = .next t := by
  cases e with
  | read off n => exact ⟨_, rfl⟩
  | write off n v => exact memWrite_total off n v s
  | reset => exact ⟨_, rfl⟩

theorem step_of_empty {s : State} (hp : s.pending = []) : step s = .next s := by
  simp only [step, hp]

theorem step_of_cons {s : State} {e : BusEvent} {rest : List BusEvent} (hp : s.pending = e :: rest) :
    step s = perform e { s with pending := rest } := by
  simp only [step, hp]

theorem step_total (s : State) : ∃ t, step s = .next t := by
  cases hp : s.pending with
  | nil => exact ⟨s, step_of_empty hp⟩
  | cons e rest =>
    rw [step_of_cons hp]
    exact perform_total e _

/-- Settles O46. -/
theorem everyStateHasANextState : Obligations.EveryStateHasANextState :=
  ⟨exec_total, step_total⟩

/-! ### The parameter and the bus -/

/-- Settles O47: `step_inversion` says so of every event. -/
theorem noStepChangesTheParameter : Obligations.NoStepChangesTheParameter := by
  intro s t h
  obtain ⟨-, rfl⟩ | ⟨e, rest, -, -, hconfig, -⟩ := step_inversion h
  · rfl
  · exact hconfig

/-- A step takes the next access, if there is one, off the bus (R46). -/
theorem step_pending {s t : State} (h : step s = .next t) : t.pending = s.pending.tail := by
  obtain ⟨hp, rfl⟩ | ⟨e, rest, hp, hrest, -, -⟩ := step_inversion h
  · rw [hp, List.tail_nil]
  · rw [hp, hrest, List.tail_cons]

theorem exec_sameBus {i : Instr} {s t : State} (h : exec i s = .next t) : SameBus s t := by
  obtain ⟨-, rfl⟩ | ⟨a, b, -, rfl⟩ | ⟨d, x, rfl, -⟩ | ⟨d, x, rfl, -⟩ | ⟨d, x, rfl, -⟩ :=
    exec_inversion h
  all_goals exact ⟨rfl, rfl, rfl⟩

theorem execute_sameBus {w : Word} {s t : State} (h : execute w s = .next t) : SameBus s t := by
  obtain ⟨i, -, hexec⟩ | ⟨x, -, rfl⟩ := execute_cases h
  · exact exec_sameBus hexec
  · exact ⟨rfl, rfl, rfl⟩

/-- A host write, with the command it may start, answers no read. -/
theorem memWrite_sameBus {off : Offset} {n : AccessWidth} {v : Word} {s t : State}
    (h : memWrite off n v s = .next t) : SameBus s t := by
  obtain ⟨-, rfl⟩ | ⟨-, rfl⟩ | ⟨-, rfl⟩ | ⟨-, hexec⟩ | ⟨i, -, rfl⟩ | ⟨i, j, -, rfl⟩ |
    ⟨i, e, -, rfl⟩ := memWrite_cases h
  case inr.inr.inr.inl => exact execute_sameBus hexec
  all_goals exact ⟨rfl, rfl, rfl⟩

theorem memRead_returned (off : Offset) (n : AccessWidth) (s : State) :
    (memRead off n s).2.returned = s.returned := by
  obtain ⟨-, hread⟩ | ⟨r, -, hread⟩ := memRead_cases off n s
  · rw [hread, State.raise_returned]
  · rw [hread]

/-- What a read reads does not depend on the accesses still to come. -/
theorem readReg_withPending (s : State) (p : List BusEvent) (r : WindowReg) :
    readReg { s with pending := p } r = readReg s r := by
  cases r with
  | id | cfg | status | cmd | scalar | lane | element => rfl

theorem memRead_value_withPending (off : Offset) (n : AccessWidth) (s : State)
    (p : List BusEvent) : (memRead off n { s with pending := p }).1 = (memRead off n s).1 := by
  cases hreg : admittedReg off n with
  | none => rw [Window.memRead_of_none _ hreg, Window.memRead_of_none _ hreg]
  | some r =>
    rw [Window.memRead_of_reg _ hreg, Window.memRead_of_reg _ hreg]
    exact readReg_withPending s p r

/-- Settles O48: the bus by `step_pending`, the answers by what each event appends to them. -/
theorem eachStepPerformsOneAccess : Obligations.EachStepPerformsOneAccess := by
  intro s t e rest hp h
  refine ⟨by rw [step_pending h, hp, List.tail_cons], ?_⟩
  rw [step_of_cons hp] at h
  cases e with
  | read off n =>
    cases h
    refine .inl ⟨off, n, rfl, ?_⟩
    rw [State.answer_returned, memRead_returned, memRead_value_withPending]
  | write off n v =>
    obtain ⟨-, -, hreturned⟩ := memWrite_sameBus h
    exact .inr ⟨fun _ _ => BusEvent.noConfusion, hreturned⟩
  | reset =>
    cases h
    exact .inr ⟨fun _ _ => BusEvent.noConfusion, rfl⟩

/-! ### What a command writes (R31) -/

section Writes

variable (s : State) {r : WindowReg}

theorem readReg_setEq (b : Bool) (hr : r ≠ .status) :
    readReg (s.setEq b) r = readReg s r := by
  cases r with
  | status => exact absurd rfl hr
  | id | cfg | cmd | scalar | lane | element => rfl

/-- Writing a vector register changes what its lanes read, where the new lane differs. -/
theorem readReg_setV {d : RegNo} {x : Vec}
    (hx : ∀ j : Fin 4, r = .lane d j → x[j.val] = (s.getV d)[j.val]) :
    readReg (s.setV d x) r = readReg s r := by
  cases r with
  | lane n j =>
    by_cases hn : n = d
    · subst hn
      rw [readReg, State.getV_setV_self, hx j rfl, readReg]
    · rw [readReg, State.getV_setV_ne s x hn, readReg]
  | id | cfg | status | cmd | scalar | element => rfl

/-- Writing a matrix register changes what its elements read, where the new element differs. -/
theorem readReg_setM {d : RegNo} {x : Mat}
    (hx : ∀ e : Fin 16, r = .element d e → x[e.val] = (s.getM d)[e.val]) :
    readReg (s.setM d x) r = readReg s r := by
  cases r with
  | element n e =>
    by_cases hn : n = d
    · subst hn
      rw [readReg, State.getM_setM_self, hx e rfl, readReg]
    · rw [readReg, State.getM_setM_ne s x hn, readReg]
  | id | cfg | status | cmd | scalar | lane => rfl

end Writes

/-- A command leaves every register that is not among its destinations as it was. -/
theorem readReg_of_not_written {i : Instr} {s t : State} {r : WindowReg}
    (h : exec i s = .next t) (hr : writesReg i r = false) : readReg t r = readReg s r := by
  obtain ⟨-, rfl⟩ | ⟨a, b, rfl, rfl⟩ | ⟨d, x, rfl, hd⟩ | ⟨d, x, rfl, hx⟩ | ⟨d, x, rfl, hx⟩ :=
    exec_inversion h
  · rfl
  · refine readReg_setEq s _ ?_
    rintro rfl
    cases hr
  · refine Window.readReg_setS_ne s x ?_
    rintro rfl
    rw [hd] at hr
    cases hr
  · exact readReg_setV s fun j hj => hx j (hj ▸ hr)
  · exact readReg_setM s fun e he => hx e (he ▸ hr)

/-- A command leaves the error bits as they were: it writes no bit of STATUS but EQ. -/
theorem exec_errorBit {i : Instr} {s t : State} (c : ErrorCause) (h : exec i s = .next t) :
    t.status.getLsbD c.code = s.status.getLsbD c.code := by
  obtain ⟨-, rfl⟩ | ⟨a, b, -, rfl⟩ | ⟨d, x, rfl, -⟩ | ⟨d, x, rfl, -⟩ | ⟨d, x, rfl, -⟩ :=
    exec_inversion h
  case inr.inl => exact Exceptions.getLsbD_code_withStatusBit_eqBit c _ _
  all_goals rfl

/-- Settles O53: a byte is that of a register, which is not written. -/
theorem commandsWriteOnlyTheirDestinations : Obligations.CommandsWriteOnlyTheirDestinations := by
  refine fun i s t h => ⟨fun off hoff => ?_, exec_errorBit .illegalCommand h,
    exec_errorBit .busError h, exec_sameBus h⟩
  rw [windowByte, windowByte]
  cases hreg : regAt off with
  | none => rfl
  | some r => rw [Option.map_some, Option.map_some, readReg_of_not_written h (hoff r hreg)]

/-- Settles O52: only `MCMP` writes STATUS, and of that only EQ, with a value read from the matrix
registers; the other commands write a register file, with a value that STATUS is no part of. -/
theorem errorsDoNotBlockCommands : Obligations.ErrorsDoNotBlockCommands := by
  intro i w s
  cases i with
  | mcmp a b =>
    refine ⟨_, _, exec_mcmp s a b, exec_mcmp _ a b, ⟨rfl, rfl, rfl⟩, fun _ _ _ => ?_,
      fun h => absurd rfl (h a b)⟩
    rw [MatrixBasic.eq_setEq, MatrixBasic.eq_setEq]
    rfl
  | nop | mident | mcopy | mmul | mvmul4 | mvmul3 | mscale | mtrans | mgetidx | vdot4 | smul
  | smac => exact ⟨_, _, rfl, rfl, ⟨rfl, rfl, rfl⟩, fun _ _ => Instr.noConfusion, fun _ => rfl⟩

/-! ### Command words as accesses -/

theorem decode_of_decodeTableWord {nbits w : Nat} {i : Instr}
    (h : decodeTableWord nbits w = some i) : decode (BitVec.ofNat 32 (w % 2 ^ nbits)) = .ok i := by
  rw [decodeTableWord] at h
  cases hdec : decode (BitVec.ofNat 32 (w % 2 ^ nbits)) with
  | error x => rw [hdec] at h; cases h
  | ok j => rw [hdec] at h; cases h; rfl

/-- A step whose next access is a CMD write of a command's word is that command (R31). -/
theorem step_of_command {s : State} {w : Word} {i : Instr} {rest : List BusEvent}
    (hp : s.pending = .write 0x00C .w32 w :: rest) (hdec : decode w = .ok i) :
    step s = exec i { s with pending := rest } := by
  rw [Exceptions.step_of_cmd_write hp, Window.execute_of_decode hdec]

/-- Settles O39: a word placed by `withFetchWord` is such a CMD write, with what was pending after
it. -/
theorem stepRunsTheDecodedCommand : Obligations.StepRunsTheDecodedCommand :=
  ⟨fun _ _ _ _ hp hdec => step_of_command hp hdec,
    fun _ _ _ _ h => step_of_command rfl (decode_of_decodeTableWord h),
    fun _ hp => step_of_empty hp⟩

/-! ### Runs (R113) -/

/-- Settles O54: each step of the run is over clean traffic, so it keeps the state free of errors and
leaves clean traffic. -/
theorem cleanTrafficNeverRaisesAnError : Obligations.CleanTrafficNeverRaisesAnError := by
  intro k
  induction k with
  | zero => exact fun s hfree _ => ⟨s, rfl, hfree, List.drop_zero.symm⟩
  | succ k ih =>
    intro s hfree hclean
    obtain ⟨t, ht⟩ := step_total s
    have hpending := step_pending ht
    have hclean' : ∀ e ∈ t.pending, e.clean = true := fun e he =>
      hclean e (List.mem_of_mem_tail (hpending ▸ he))
    obtain ⟨u, hrun, hfree', hdrop⟩ := ih t (StatusBits.step_errorFree ht hfree hclean) hclean'
    refine ⟨u, (Pseudos.run_succ ht).trans hrun, hfree', ?_⟩
    rw [hdrop, hpending, List.drop_tail]

end Sys2Proof.Proofs.Frames
end

section
/-! PROOFS. The window as the host sees it: its map (R41), its bytes (R47), its place in the host's
address space (R40), and a read that follows a write (R46). -/

namespace Sys2Proof.Proofs.WindowView

open Sys2Proof.Machine

/-! ### The address map (R41) -/

/-- Settles O31: the mapped offsets by `mapped_iff_listed`, and each register at its own offset. -/
theorem addressMapIsExact : Obligations.AddressMapIsExact :=
  ⟨Window.mapped_iff_listed, rfl, rfl, rfl, rfl, fun n => Window.regAt_offset (.scalar n),
    fun n j => Window.regAt_offset (.lane n j), fun n e => Window.regAt_offset (.element n e)⟩

/-! ### The bytes of a register (R47) -/

/-- The map does not tell the four bytes of a word apart. -/
theorem regAt_congr {off off' : Offset} (h : off.toNat / 4 = off'.toNat / 4) :
    regAt off = regAt off' := by
  have hlt (k : Nat) : off.toNat < 4 * k ↔ off'.toNat < 4 * k := by omega
  have hsub (k m : Nat) :
      (off.toNat - 4 * k) / (4 * (m + 1)) = (off'.toNat - 4 * k) / (4 * (m + 1)) := by
    rw [← Nat.div_div_eq_div_mul, ← Nat.div_div_eq_div_mul, Nat.sub_mul_div, Nat.sub_mul_div, h]
  simp only [regAt, hlt 1, hlt 2, hlt 3, hlt 4, hlt 0x20, hlt 0x28, hlt 0x40, hlt 0x60, hlt 0x80,
    hlt 0x100, hsub 0x20 0, hsub 0x40 3, hsub 0x40 0, hsub 0x80 15, hsub 0x80 0]

/-- The offset of byte `k` of a register: the bytes of one register do not run over the end of the
window. -/
theorem toNat_offset_add (r : WindowReg) {k : Nat} (hk : k < 4) :
    (r.offset + BitVec.ofNat 12 k).toNat = r.offset.toNat + k := by
  have haligned := Window.offset_aligned r
  have hlt := r.offset.isLt
  rw [BitVec.toNat_add, BitVec.toNat_ofNat]
  omega

/-- Byte `k` of a register stands `k` bytes after the register's offset. -/
theorem windowByte_offset_add (s : State) (r : WindowReg) {k : Nat} (hk : k < 4) :
    windowByte s (r.offset + BitVec.ofNat 12 k) = some (byteOf (readReg s r) k) := by
  have haligned := Window.offset_aligned r
  have hoff := toNat_offset_add r hk
  have hreg : regAt (r.offset + BitVec.ofNat 12 k) = some r := by
    rw [regAt_congr (off' := r.offset) (by omega), Window.regAt_offset]
  have hmod : (r.offset + BitVec.ofNat 12 k).toNat % 4 = k := by omega
  rw [windowByte, hreg, Option.map_some, hmod]

/-- A word is its four bytes, the highest first. -/
theorem append_byteOf (w : Word) : w = byteOf w 3 ++ byteOf w 2 ++ byteOf w 1 ++ byteOf w 0 := by
  apply BitVec.eq_of_getLsbD_eq
  intro i hi
  simp only [byteOf, BitVec.getLsbD_append, BitVec.getLsbD_extractLsb']
  interval_cases i <;> simp

/-- Settles O37: the bytes by `windowByte_offset_add`, the word they make by `append_byteOf`. -/
theorem windowBytesAreLittleEndian : Obligations.WindowBytesAreLittleEndian := by
  intro r s
  have hzero : windowByte s r.offset = some (byteOf (readReg s r) 0) := by
    simpa using windowByte_offset_add s r (k := 0) (by decide)
  exact ⟨_, _, _, _, hzero, windowByte_offset_add s r (k := 1) (by decide),
    windowByte_offset_add s r (k := 2) (by decide), windowByte_offset_add s r (k := 3) (by decide),
    append_byteOf _⟩

/-! ### The window in the host's address space (R40) -/

/-- A host address reaches an offset exactly when it exceeds `BASE` by that offset. -/
theorem offsetOf_eq_some_iff (addr : Nat) (off : Offset) :
    offsetOf addr = some off ↔ addr = hostAddress off := by
  have hoff := off.isLt
  rw [offsetOf, hostAddress, Config.windowBytes]
  split_ifs with hin
  · rw [Option.some.injEq, ← BitVec.toNat_inj, BitVec.toNat_ofNat]
    omega
  · exact ⟨nofun, fun h => absurd ⟨by omega, by omega⟩ hin⟩

/-- A host address reaches no offset exactly when it is below or beyond the window. -/
theorem offsetOf_eq_none_iff (addr : Nat) :
    offsetOf addr = none ↔ addr < Config.base ∨ Config.base + 4096 ≤ addr := by
  rw [offsetOf, Config.windowBytes]
  split_ifs with hin
  · exact ⟨nofun, fun h => by omega⟩
  · exact ⟨fun _ => by omega, fun _ => rfl⟩

/-- Settles O38. -/
theorem windowIsFourKiBFromBase : Obligations.WindowIsFourKiBFromBase :=
  ⟨Nat.mul_mod_right _ _, fun off => (offsetOf_eq_some_iff _ off).mpr rfl, fun addr =>
    ⟨fun off h => (offsetOf_eq_some_iff addr off).mp h, offsetOf_eq_none_iff addr⟩⟩

/-! ### Sequential order (R46) -/

/-- A step whose next access is the read of a register answers what the register reads as. -/
theorem step_of_read {s : State} {r : WindowReg} {rest : List BusEvent}
    (hp : s.pending = .read r.offset .w32 :: rest) :
    step s = .next (State.answer { s with pending := rest } (readReg s r)) := by
  rw [Frames.step_of_cons hp, perform, Window.memRead_of_reg _ (Window.admittedReg_offset r),
    Frames.readReg_withPending]

/-- Settles O41: the write leaves the value in the register and the read still pending, and the read
answers it. -/
theorem readFollowsTheLastWrite : Obligations.ReadFollowsTheLastWrite := by
  intro s r v rest hfile hp
  obtain ⟨-, t, hwrite, hvalue, -, hstatus, -, hpending, hreturned⟩ :=
    Window.registerFilesReadAndWrite r v { s with pending := .read r.offset .w32 :: rest } hfile
  refine ⟨t, _, (Frames.step_of_cons hp).trans hwrite, step_of_read hpending, ?_, rfl, ?_, hstatus⟩
  · rw [State.answer_returned, hvalue, hreturned]
  · rw [← hvalue]
    exact Frames.readReg_withPending t rest r

end Sys2Proof.Proofs.WindowView
end

section
/-! PROOFS. The reset values of R33, at the start and after a reset event (R120). -/

namespace Sys2Proof.Proofs.Reset

open Sys2Proof.Machine

section Values

variable (c : Config) (n : RegNo)

theorem getM_resetWith : (State.resetWith c).getM n = resetMatrix := by
  simp [State.getM, State.resetWith]

theorem getV_resetWith : (State.resetWith c).getV n = #v[0, 0, 0, 0] := by
  simp only [State.getV, State.resetWith, Vector.getElem_replicate]
  rfl

theorem getS_resetWith : (State.resetWith c).getS n = 0 := by
  simp [State.getS, State.resetWith]

end Values

/-- The elements of the matrix R33 gives every matrix register, which is the identity of R83. -/
theorem resetMatrix_get (e : Fin 16) :
    resetMatrix[e.val] = if e.val ∈ [0, 5, 10, 15] then 0x00001000 else 0x00000000 := by
  have heq : identityMatrix = resetMatrix := identityMatrix_eq
  rw [← heq, MatrixBasic.identityMatrix_get]

/-- Settles O43: the register files by their lemmas; STATUS is 0, and so is each bit of it. -/
theorem resetLeavesTheStatedValues : Obligations.ResetLeavesTheStatedValues := by
  refine ⟨fun c => ⟨fun n e => ?_, fun n j => ?_, getS_resetWith c, rfl,
    BitVec.getLsbD_zero, BitVec.getLsbD_zero, BitVec.getLsbD_zero, rfl, Cfg.cfgValue_eq c, rfl,
    rfl⟩, rfl⟩
  · rw [getM_resetWith, resetMatrix_get]
  · rw [getV_resetWith]
    revert j
    decide

/-- Settles O42: a reset event puts the register files and STATUS at their reset values, and takes
nothing else. -/
theorem resetEventRestoresTheBlock : Obligations.ResetEventRestoresTheBlock := fun s _ hp =>
  ⟨_, Frames.step_of_cons hp, getM_resetWith s.config, getV_resetWith s.config,
    getS_resetWith s.config, rfl, rfl, rfl, rfl, rfl, rfl⟩

end Sys2Proof.Proofs.Reset
end

section
/-! PROOFS. The laws between commands of 40, 42 and 43: products are exact, a widened value comes back,
and what a zero factor, an identity, a scaling or a translation matrix makes of a sum of products. -/

namespace Sys2Proof.Proofs.CommandLaws

open Sys2Proof.Machine

/-! ### One product in the accumulator (R14) -/

theorem natAbs_s32_le (a : Word) : (s32 a).natAbs ≤ 2 ^ 31 := by
  have hrange := s32_range a
  omega

/-- The one pattern of magnitude 2^31 is the least. -/
theorem natAbs_s32_eq_iff (a : Word) : (s32 a).natAbs = 2 ^ 31 ↔ a = 0x80000000 := by
  have hrange := s32_range a
  have hleast : (0x80000000 : Word).toInt = -2 ^ 31 := by decide
  rw [← BitVec.toInt_inj, hleast, ← s32]
  omega

/-- A product of two numbers up to a bound reaches the square of the bound only at the bound. -/
theorem mul_eq_sq_iff {m n b : Nat} (hb : 0 < b) (hm : m ≤ b) (hn : n ≤ b) :
    m * n = b * b ↔ m = b ∧ n = b := by
  refine ⟨fun h => ?_, fun ⟨h1, h2⟩ => by rw [h1, h2]⟩
  constructor
  · by_contra hne
    exact absurd h (Nat.mul_lt_mul_of_lt_of_le (by omega) hn hb).ne
  · by_contra hne
    exact absurd h (Nat.mul_lt_mul_of_le_of_lt hm (by omega) hb).ne

theorem natAbs_mul64_le (a b : Word) : (mul64 a b).natAbs ≤ 2 ^ 62 := by
  have hsq : 2 ^ 62 = 2 ^ 31 * 2 ^ 31 := rfl
  rw [mul64, Int.natAbs_mul, hsq]
  exact Nat.mul_le_mul (natAbs_s32_le a) (natAbs_s32_le b)

theorem natAbs_mul64_eq_iff (a b : Word) :
    (mul64 a b).natAbs = 2 ^ 62 ↔ a = 0x80000000 ∧ b = 0x80000000 := by
  rw [mul64, Int.natAbs_mul, ← natAbs_s32_eq_iff, ← natAbs_s32_eq_iff]
  exact mul_eq_sq_iff (by decide) (natAbs_s32_le a) (natAbs_s32_le b)

theorem wrap64_mul64 (a b : Word) : wrap64 (mul64 a b) = mul64 a b := by
  have hle := natAbs_mul64_le a b
  exact wrap64_of_range (by omega) (by omega)

/-- Settles O15: the bound, when it is reached, and the accumulator of the one term, which the bound
keeps from wrapping. -/
theorem productsFitTheAccumulator : Obligations.ProductsFitTheAccumulator := by
  refine fun a b => ⟨natAbs_mul64_le a b, natAbs_mul64_eq_iff a b, ?_⟩
  rw [acc64, List.sum_singleton, wrap64_mul64]

/-! ### A value widened and shifted down (R15, R16) -/

/-- A widened value is the product with one. -/
theorem shiftUp_eq_mul64 (x : Word) : shiftUp x = mul64 x one := rfl

theorem dot_shiftUp (sat : Bool) (x : Word) : dot sat [shiftUp x] = x :=
  MatrixMultiply.dot_of_sum_eq_shiftUp sat List.sum_singleton

/-- The accumulator of one product is the product, so nothing but the shift-down acts on it. -/
theorem dot_mul64 (sat : Bool) (a b : Word) : dot sat [mul64 a b] = shiftDown sat (mul64 a b) := by
  rw [dot, acc64, List.sum_singleton, wrap64_mul64]

/-- Settles O17: through the accumulator by `dot_shiftUp`; alone because widening is the product with
one, which the accumulator does not change. -/
theorem shiftDownUndoesShiftUp : Obligations.ShiftDownUndoesShiftUp := by
  refine fun sat x => ⟨?_, dot_shiftUp sat x⟩
  have hacc := dot_mul64 sat x one
  rw [← shiftUp_eq_mul64, dot_shiftUp] at hacc
  exact hacc.symm

/-! ### Commands that change nothing -/

theorem mul64_eq_zero {a b : Word} (h : a = 0 ∨ b = 0) : mul64 a b = 0 := by
  have hzero : s32 0 = 0 := by decide
  obtain rfl | rfl := h
  · rw [mul64, hzero, zero_mul]
  · rw [mul64, hzero, mul_zero]

/-- Settles O22: of the two terms the widened old value is left. -/
theorem smacByZeroChangesNothing : Obligations.SmacByZeroChangesNothing := by
  intro d a b s h
  have hsum : [shiftUp (s.getS d), mul64 (s.getS a) (s.getS b)].sum = shiftUp (s.getS d) := by
    rw [mul64_eq_zero h, List.sum_cons, List.sum_singleton, Int.add_zero]
  rw [exec_smac, MatrixMultiply.dot_of_sum_eq_shiftUp _ hsum, State.setS_getS]

/-- The four terms of a row with a vector, as one sum over the lanes. -/
theorem sum_rowTerms4 (A : Mat) (v : Vec) (r : Fin 4) :
    (rowTerms3 A v r ++ [mul64 (matAt A r 3) v[3]]).sum =
      ∑ k : Fin 4, s32 (matAt A r k) * s32 v[k.val] := by
  rw [List.sum_append, List.sum_singleton, rowTerms3, List.sum_cons, List.sum_cons,
    List.sum_singleton, Fin.sum_univ_four, Int.add_assoc (s32 _ * s32 _)]
  rfl

/-- Of row `r` of the identity with a vector, lane `r` is left. -/
theorem dot_row_resetMatrix (sat : Bool) (v : Vec) (r : Fin 4) :
    dot sat (rowTerms3 resetMatrix v r ++ [mul64 (matAt resetMatrix r 3) v[3]]) = v[r.val] := by
  apply MatrixMultiply.dot_of_sum_eq_shiftUp
  rw [sum_rowTerms4, shiftUp_eq]
  simp only [MatrixMultiply.s32_matAt_resetMatrix, ite_mul, zero_mul, Finset.sum_ite_eq,
    Finset.mem_univ, if_true]
  exact Int.mul_comm _ _

/-- Settles O23: every lane is written back as it was. -/
theorem mvmul4ByIdentityChangesNothing : Obligations.Mvmul4ByIdentityChangesNothing := by
  intro d a s ha
  have hlanes : (vecOf fun r => dot s.config.saturate
      (rowTerms3 (s.getM a) (s.getV d) r ++ [mul64 (matAt (s.getM a) r 3) (s.getV d)[3]])) =
      s.getV d := by
    apply Vector.ext
    intro r hr
    rw [vecOf_get _ r hr, ha, dot_row_resetMatrix]
  rw [exec_mvmul4, hlanes, State.setV_getV]

/-! ### Scaling and translation matrices (R97) -/

/-- Element (k, c) of the scaling matrix: lane `c` or one on the diagonal, 0 elsewhere. -/
theorem matAt_scalingMatrix (v : Vec) (k c : Fin 4) :
    matAt (scalingMatrix v) k c =
      if k = c then (if h : c.val < 3 then v[c.val] else one) else 0 := by
  fin_cases k <;> fin_cases c <;> rfl

/-- Element (k, c) of the translation matrix: the identity but for column 3, which is the vector's
first three lanes and one. -/
theorem matAt_translationMatrix (v : Vec) (k c : Fin 4) :
    matAt (translationMatrix v) k c =
      if c = 3 then (if h : k.val < 3 then v[k.val] else one) else matAt resetMatrix k c := by
  fin_cases k <;> fin_cases c <;> rfl

/-- An element of a product as one sum of products (R90). -/
theorem productElement_eq_dot_sum (sat : Bool) (A B : Mat) (r c : Fin 4) :
    productElement sat A B r c = dot sat [∑ k, mul64 (matAt A r k) (matAt B k c)] := by
  simp only [productElement, dot, acc64, Fin.sum_univ_four, List.sum_cons, List.sum_nil,
    Int.add_zero, Int.add_assoc]

/-- A product with the identity's column `c` is the other factor's column `c` (R93). -/
theorem productElement_of_identity_column (sat : Bool) {A B : Mat} (r : Fin 4) {c : Fin 4}
    (hB : ∀ k, matAt B k c = matAt resetMatrix k c) : productElement sat A B r c = matAt A r c := by
  rw [← MatrixMultiply.productElement_resetMatrix_right sat A r c]
  simp only [productElement, hB]

/-- In a product with the scaling matrix every term but one is a product with 0. -/
theorem productElement_scalingMatrix (sat : Bool) (A : Mat) (v : Vec) (r c : Fin 4) :
    productElement sat A (scalingMatrix v) r c =
      if c.val < 3 then shiftDown sat (mul64 (matAt A r c) v[c.val]) else matAt A r c := by
  by_cases hc : c.val < 3
  · have hextra : ∀ k ∈ Finset.univ, k ≠ c →
        mul64 (matAt A r k) (matAt (scalingMatrix v) k c) = 0 := fun k _ hk =>
      mul64_eq_zero (.inr (by rw [matAt_scalingMatrix, if_neg hk]))
    rw [productElement_eq_dot_sum, Finset.sum_eq_single c hextra (absurd (Finset.mem_univ c)),
      matAt_scalingMatrix, if_pos rfl, dif_pos hc, if_pos hc, dot_mul64]
  · have hc3 : c = 3 := by omega
    subst hc3
    exact productElement_of_identity_column sat r fun k => by fin_cases k <;> rfl

/-- The product with the translation matrix's column 3 has the terms that `MTRANS` sums. -/
theorem productElement_translationMatrix (sat : Bool) (A : Mat) (v : Vec) (r c : Fin 4) :
    productElement sat A (translationMatrix v) r c =
      if c.val = 3 then dot sat (rowTerms3 A v r ++ [shiftUp (matAt A r 3)])
      else matAt A r c := by
  by_cases hc : c.val = 3
  · have hc3 : c = 3 := Fin.ext hc
    subst hc3
    rfl
  · rw [if_neg hc]
    have hc3 : c ≠ 3 := fun h => hc (congrArg Fin.val h)
    exact productElement_of_identity_column sat r fun k => by
      rw [matAt_translationMatrix, if_neg hc3]

/-- A command that writes `X` to `M[d]` leaves there what `MMUL` leaves, if the elements of `X` are those
of the product. -/
theorem next_eq_mmul {i : Instr} {d x : RegNo} {s : State} {f : Fin 4 → Fin 4 → Word}
    (h : exec i s = .next (s.setM d (matOf f)))
    (hf : ∀ r c, productElement s.config.saturate (s.getM d) (s.getM x) r c = f r c) :
    ∃ t u, exec i s = .next t ∧ exec (.mmul d x) s = .next u ∧ t.getM d = u.getM d := by
  refine ⟨_, _, h, exec_mmul s d x, ?_⟩
  have hprod : productElement s.config.saturate (s.getM d) (s.getM x) = f :=
    funext fun r => funext (hf r)
  rw [hprod]

/-- Settles O19: element by element, in the two forms above. -/
theorem scaleAndTranslateAreProducts : Obligations.ScaleAndTranslateAreProducts := by
  refine fun d a x s => ⟨fun hx => ?_, fun hx => ?_⟩
  · refine next_eq_mmul (exec_mscale s d a) fun r c => ?_
    rw [hx, productElement_scalingMatrix]
  · refine next_eq_mmul (exec_mtrans s d a) fun r c => ?_
    rw [hx, productElement_translationMatrix]

/-! ### Translations compose (R98) -/

/-- The matrix of no translation is the identity. -/
theorem translationMatrix_zero : translationMatrix (Vector.replicate 4 0) = resetMatrix := rfl

/-- The terms of `MTRANS` on the identity: the widened lane of the row, and nothing for row 3. -/
theorem sum_rowTerms3_resetMatrix (v : Vec) (r : Fin 4) :
    (rowTerms3 resetMatrix v r).sum = if h : r.val < 3 then shiftUp v[r.val] else 0 := by
  fin_cases r <;>
    simp [rowTerms3, mul64, MatrixMultiply.s32_matAt_resetMatrix, shiftUp_eq, Int.mul_comm]

/-- Only the first three columns of the matrix and the first three lanes of the vector are read. -/
theorem rowTerms3_congr {A B : Mat} {v w : Vec} {r : Fin 4}
    (hA : ∀ c : Fin 4, c.val < 3 → matAt B r c = matAt A r c)
    (hv : ∀ j : Fin 4, j.val < 3 → w[j.val] = v[j.val]) : rowTerms3 B w r = rowTerms3 A v r := by
  have h0 : w[0] = v[0] := hv 0 (by decide)
  have h1 : w[1] = v[1] := hv 1 (by decide)
  have h2 : w[2] = v[2] := hv 2 (by decide)
  rw [rowTerms3, rowTerms3, h0, h1, h2, hA 0 (by decide), hA 1 (by decide), hA 2 (by decide)]

/-- A row of column 3 of a translation matrix, translated: the lanes add up, and the last element stays
one, when no lane of the sum overflows. -/
theorem dot_translate_translationMatrix (sat : Bool) {v w x : Vec}
    (h : ∀ j : Fin 4, j.val < 3 → laneInt x j.val = laneInt v j.val + laneInt w j.val) (r : Fin 4) :
    dot sat (rowTerms3 (translationMatrix v) w r ++ [shiftUp (matAt (translationMatrix v) r 3)]) =
      matAt (translationMatrix x) r 3 := by
  have hrow : rowTerms3 (translationMatrix v) w r = rowTerms3 resetMatrix w r :=
    rowTerms3_congr (fun c hc => by rw [matAt_translationMatrix, if_neg (by rintro rfl; omega)])
      fun _ _ => rfl
  apply MatrixMultiply.dot_of_sum_eq_shiftUp
  rw [List.sum_append, List.sum_singleton, hrow, sum_rowTerms3_resetMatrix, matAt_translationMatrix,
    matAt_translationMatrix, if_pos rfl, if_pos rfl]
  by_cases hr : r.val < 3
  · have hlane := h r hr
    simp only [laneInt_eq _ r.val r.isLt] at hlane
    rw [dif_pos hr, dif_pos hr, dif_pos hr, shiftUp_eq, shiftUp_eq, shiftUp_eq, hlane]
    omega
  · rw [dif_neg hr, dif_neg hr, dif_neg hr, Int.zero_add]

/-- `MTRANS` of a translation matrix is the translation matrix by the sum (R96). -/
theorem exec_mtrans_translationMatrix {d a : RegNo} {s : State} {v x : Vec}
    (hd : s.getM d = translationMatrix v)
    (h : ∀ j : Fin 4, j.val < 3 → laneInt x j.val = laneInt v j.val + laneInt (s.getV a) j.val) :
    exec (.mtrans d a) s = .next (s.setM d (translationMatrix x)) := by
  rw [exec_mtrans, hd]
  refine congrArg Host.Outcome.next (congrArg (s.setM d) (mat_ext fun r c => ?_))
  rw [matAt_matOf]
  by_cases hc : c = 3
  · subst hc
    exact (if_pos rfl).trans (dot_translate_translationMatrix _ h r)
  · have hval : ¬ c.val = 3 := fun h3 => hc (Fin.ext h3)
    rw [if_neg hval, matAt_translationMatrix, matAt_translationMatrix, if_neg hc, if_neg hc]

/-- Settles O20: the identity is the translation by zero, so both ways leave the translation matrix of
`V[c]`. -/
theorem translationsOfIdentityCompose : Obligations.TranslationsOfIdentityCompose := by
  intro d a b c s hd hsum
  have hd0 := hd.trans translationMatrix_zero.symm
  have hzero (x : Vec) (j : Fin 4) :
      laneInt x j.val = laneInt (Vector.replicate 4 0) j.val + laneInt x j.val := by
    simp [laneInt]
  have hfirst := exec_mtrans_translationMatrix (a := a) hd0 fun j _ => hzero (s.getV a) j
  have hsecond := exec_mtrans_translationMatrix (a := b) (x := s.getV c)
    (s.getM_setM_self d (translationMatrix (s.getV a))) hsum
  have hdirect := exec_mtrans_translationMatrix (a := c) hd0 fun j _ => hzero (s.getV c) j
  refine ⟨_, _, _, hfirst, hsecond, hdirect, fun r => ?_⟩
  rw [State.getM_setM_self, State.getM_setM_self]

/-! ### Operands that are never read (R92, R95, R96) -/

/-- `MVMUL3` reads the upper left 3x3 block and lanes 0 to 2 only. -/
theorem mvmul3_congr {d a : RegNo} {s u : State} (hconfig : s.config = u.config)
    (hM : ∀ e : Fin 16, e.val % 4 < 3 → e.val < 12 → (u.getM a)[e.val] = (s.getM a)[e.val])
    (hV : ∀ j : Fin 4, j.val < 3 → (u.getV d)[j.val] = (s.getV d)[j.val]) :
    ∃ t w, exec (.mvmul3 d a) s = .next t ∧ exec (.mvmul3 d a) u = .next w ∧
      ∀ j : Fin 4, j.val < 3 → (w.getV d)[j.val] = (t.getV d)[j.val] := by
  refine ⟨_, _, exec_mvmul3 s d a, exec_mvmul3 u d a, fun j hj => ?_⟩
  have hblock : ∀ c : Fin 4, c.val < 3 → matAt (u.getM a) j c = matAt (s.getM a) j c :=
    fun c hc => hM (storageIndex j c) (by simp only [storageIndex]; omega)
      (by simp only [storageIndex]; omega)
  rw [State.getV_setV_self, State.getV_setV_self, vecOf_get _ j.val j.isLt,
    vecOf_get _ j.val j.isLt, if_pos hj, if_pos hj, rowTerms3_congr hblock hV, hconfig]

/-- `MSCALE` reads lanes 0 to 2 only. -/
theorem mscale_congr {d a : RegNo} {s u : State} (hconfig : s.config = u.config)
    (hM : s.getM d = u.getM d)
    (hV : ∀ j : Fin 4, j.val < 3 → (u.getV a)[j.val] = (s.getV a)[j.val]) :
    ∃ t w, exec (.mscale d a) s = .next t ∧ exec (.mscale d a) u = .next w ∧
      w.getM d = t.getM d := by
  refine ⟨_, _, exec_mscale s d a, exec_mscale u d a, ?_⟩
  rw [State.getM_setM_self, State.getM_setM_self]
  refine mat_ext fun r c => ?_
  rw [matAt_matOf, matAt_matOf, hM, hconfig]
  by_cases hc : c.val < 3
  · rw [if_pos hc, if_pos hc, hV c hc]
  · rw [if_neg hc, if_neg hc]

/-- `MTRANS` reads lanes 0 to 2 only. -/
theorem mtrans_congr {d a : RegNo} {s u : State} (hconfig : s.config = u.config)
    (hM : s.getM d = u.getM d)
    (hV : ∀ j : Fin 4, j.val < 3 → (u.getV a)[j.val] = (s.getV a)[j.val]) :
    ∃ t w, exec (.mtrans d a) s = .next t ∧ exec (.mtrans d a) u = .next w ∧
      w.getM d = t.getM d := by
  refine ⟨_, _, exec_mtrans s d a, exec_mtrans u d a, ?_⟩
  rw [State.getM_setM_self, State.getM_setM_self]
  refine mat_ext fun r c => ?_
  rw [matAt_matOf, matAt_matOf, hM, hconfig, rowTerms3_congr (fun _ _ => rfl) hV]

/-- Settles O24, a command at a time. -/
theorem unreadOperandsHaveNoInfluence : Obligations.UnreadOperandsHaveNoInfluence :=
  fun _ _ _ _ hconfig => ⟨mvmul3_congr hconfig,
    fun hM hV => ⟨mscale_congr hconfig hM hV, mtrans_congr hconfig hM hV⟩⟩

end Sys2Proof.Proofs.CommandLaws
end

section
/-! PROOFS. The assembler reads back the text it writes (R68): spaces and commas separate the pieces of
a line, no piece has one inside, and each piece reads as what it was written for. -/

namespace Sys2Proof.Proofs.Text

open Sys2Proof.Machine

/-! ### Spaces at the ends -/

/-- A text with something in it and no space at either end. -/
structure Trimmed (cs : List Char) : Prop where
  ne_nil : cs ≠ []
  head : cs.head? ≠ some ' '
  last : cs.getLast? ≠ some ' '

theorem dropWhile_space {cs : List Char} (h : cs.head? ≠ some ' ') :
    cs.dropWhile (· = ' ') = cs := by
  cases cs with
  | nil => rfl
  | cons c cs =>
    have hc : c ≠ ' ' := fun hc => h (congrArg some hc)
    rw [List.dropWhile_cons_of_neg (by simpa using hc)]

theorem trimSpaces_of_trimmed {cs : List Char} (h : Trimmed cs) : trimSpaces cs = cs := by
  have hlast : cs.reverse.head? ≠ some ' ' := List.head?_reverse ▸ h.last
  rw [trimSpaces, dropWhile_space h.head, dropWhile_space hlast, List.reverse_reverse]

theorem trimSpaces_space_cons (cs : List Char) : trimSpaces (' ' :: cs) = trimSpaces cs := by
  rw [trimSpaces, List.dropWhile_cons_of_pos (by decide), trimSpaces]

/-- What stands between two trimmed texts is not at the ends. -/
theorem Trimmed.append {xs ys : List Char} (hx : Trimmed xs) (hy : Trimmed ys) (m : List Char) :
    Trimmed (xs ++ (m ++ ys)) where
  ne_nil := by simp [hx.ne_nil]
  head := by rw [List.head?_append_of_ne_nil _ hx.ne_nil]; exact hx.head
  last := by
    rw [List.getLast?_append_of_ne_nil _ (by simp [hy.ne_nil]),
      List.getLast?_append_of_ne_nil _ hy.ne_nil]
    exact hy.last

/-! ### One piece of a line -/

/-- A piece of a line: some characters, neither space nor comma. -/
structure Piece (cs : List Char) : Prop where
  ne_nil : cs ≠ []
  no_space : ' ' ∉ cs
  no_comma : ',' ∉ cs

theorem Piece.trimmed {cs : List Char} (h : Piece cs) : Trimmed cs where
  ne_nil := h.ne_nil
  head := fun hhead => h.no_space (List.mem_of_head? hhead)
  last := fun hlast => h.no_space (List.mem_of_getLast? hlast)

theorem Piece.notSpace {cs : List Char} (h : Piece cs) :
    ∀ c ∈ cs, decide (c ≠ ' ') = true := fun _ hc =>
  decide_eq_true fun hspace => h.no_space (hspace ▸ hc)

/-- The characters up to the first space after a piece are the piece. -/
theorem Piece.takeWhile_append {cs : List Char} (h : Piece cs) (rest : List Char) :
    (cs ++ ' ' :: rest).takeWhile (· ≠ ' ') = cs := by
  rw [List.takeWhile_append_of_pos h.notSpace, List.takeWhile_cons_of_neg (by decide),
    List.append_nil]

theorem Piece.dropWhile_append {cs : List Char} (h : Piece cs) (rest : List Char) :
    (cs ++ ' ' :: rest).dropWhile (· ≠ ' ') = ' ' :: rest := by
  rw [List.dropWhile_append_of_pos h.notSpace, List.dropWhile_cons_of_neg (by decide)]

/-! ### Splitting at the commas -/

theorem splitCommas_cons {c : Char} (hc : c ≠ ',') {cs p : List Char} {ps : List (List Char)}
    (h : splitCommas cs = p :: ps) : splitCommas (c :: cs) = (c :: p) :: ps := by
  rw [splitCommas, h]
  exact hc

theorem splitCommas_of_no_comma {cs : List Char} (h : ',' ∉ cs) : splitCommas cs = [cs] := by
  induction cs with
  | nil => rfl
  | cons c cs ih =>
    exact splitCommas_cons (List.ne_of_not_mem_cons h).symm (ih (List.not_mem_of_not_mem_cons h))

theorem splitCommas_append_comma {cs : List Char} (h : ',' ∉ cs) (rest : List Char) :
    splitCommas (cs ++ ',' :: rest) = cs :: splitCommas rest := by
  induction cs with
  | nil => rfl
  | cons c cs ih =>
    exact splitCommas_cons (List.ne_of_not_mem_cons h).symm (ih (List.not_mem_of_not_mem_cons h))

/-- Splitting undoes joining, but for the space that joining puts after each comma. -/
theorem splitCommas_joinOperands {t : List Char} {ts : List (List Char)}
    (h : ∀ u ∈ t :: ts, Piece u) :
    splitCommas (joinOperands (t :: ts)) = t :: ts.map (' ' :: ·) := by
  obtain ⟨ht, hts⟩ := List.forall_mem_cons.mp h
  induction ts generalizing t with
  | nil => exact splitCommas_of_no_comma ht.no_comma
  | cons u us ih =>
    obtain ⟨hu, hus⟩ := List.forall_mem_cons.mp hts
    have hjoin : joinOperands (t :: u :: us) = t ++ ',' :: ' ' :: joinOperands (u :: us) := rfl
    rw [hjoin, splitCommas_append_comma ht.no_comma,
      splitCommas_cons (by decide) (ih hts hu hus), List.map_cons]

theorem trimmed_joinOperands {t : List Char} {ts : List (List Char)}
    (h : ∀ u ∈ t :: ts, Piece u) : Trimmed (joinOperands (t :: ts)) := by
  obtain ⟨ht, hts⟩ := List.forall_mem_cons.mp h
  induction ts generalizing t with
  | nil => exact ht.trimmed
  | cons u us ih =>
    obtain ⟨hu, hus⟩ := List.forall_mem_cons.mp hts
    exact ht.trimmed.append (ih hts hu hus) [',', ' ']

theorem operandTexts_of_trimmed {rest cs : List Char} (hrest : trimSpaces rest = cs) (h : cs ≠ []) :
    operandTexts rest = (splitCommas cs).map trimSpaces := by
  rw [operandTexts, hrest]
  cases cs with
  | nil => exact absurd rfl h
  | cons => rfl

/-- The operand texts of a line are read off as they were joined. -/
theorem operandTexts_joinOperands {t : List Char} {ts : List (List Char)}
    (h : ∀ u ∈ t :: ts, Piece u) : operandTexts (' ' :: joinOperands (t :: ts)) = t :: ts := by
  have htrim := trimmed_joinOperands h
  have hrest : trimSpaces (' ' :: joinOperands (t :: ts)) = joinOperands (t :: ts) := by
    rw [trimSpaces_space_cons, trimSpaces_of_trimmed htrim]
  have hpiece : ∀ u ∈ t :: ts, trimSpaces u = u := fun u hu => trimSpaces_of_trimmed (h u hu).trimmed
  have hspace : ∀ u ∈ ts, (trimSpaces ∘ (' ' :: ·)) u = u := fun u hu =>
    (trimSpaces_space_cons u).trans (hpiece u (List.mem_cons_of_mem _ hu))
  rw [operandTexts_of_trimmed hrest htrim.ne_nil, splitCommas_joinOperands h, List.map_cons,
    List.map_map, hpiece t List.mem_cons_self, List.map_congr_left hspace, List.map_id']

/-! ### Mnemonics and operands -/

theorem piece_mnemonicName (m : Mnemonic) : Piece (mnemonicName m) := by
  cases m <;> exact ⟨by decide, by decide, by decide⟩

theorem parseMnemonic_mnemonicName (m : Mnemonic) : parseMnemonic (mnemonicName m) = some m := by
  cases m <;> decide

/-- A mark and a decimal number are a piece, for a mark that is neither space nor comma. -/
theorem piece_cons_toDigits {c : Char} (hspace : c ≠ ' ') (hcomma : c ≠ ',') (n : Nat) :
    Piece (c :: Nat.toDigits 10 n) := by
  have hdigit {x : Char} (hx : x.isDigit = false) : x ∉ Nat.toDigits 10 n := fun hmem =>
    absurd (Nat.isDigit_of_mem_toDigits (by decide) (by decide) hmem) (ne_true_of_eq_false hx)
  exact ⟨List.cons_ne_nil _ _, List.not_mem_cons_of_ne_of_not_mem hspace.symm (hdigit (by decide)),
    List.not_mem_cons_of_ne_of_not_mem hcomma.symm (hdigit (by decide))⟩

theorem piece_operandText (o : AsmOperand) : Piece (operandText o) := by
  cases o with
  | reg f n => cases f <;> exact piece_cons_toDigits (by decide) (by decide) n
  | imm k => exact piece_cons_toDigits (by decide) (by decide) k

/-- Every operand of a command is read back from its text (R63). -/
theorem parseOperand_of_mem (i : Instr) :
    ∀ o ∈ i.asm.operands, parseOperand (operandText o) = some o := by
  cases i <;> simp [Instr.asm, Laws.parseOperand_reg, Laws.parseOperand_imm]

theorem parseOperands_map {os : List AsmOperand}
    (h : ∀ o ∈ os, parseOperand (operandText o) = some o) :
    parseOperands (os.map operandText) = some os := by
  induction os with
  | nil => rfl
  | cons o os ih =>
    obtain ⟨ho, hos⟩ := List.forall_mem_cons.mp h
    rw [List.map_cons, parseOperands, ho, ih hos]
    rfl

/-! ### Lines -/

theorem parseCommandLine_mnemonicName (m : Mnemonic) :
    parseCommandLine (mnemonicName m) = .ok ⟨m, []⟩ := by
  cases m <;> decide

/-- A line of a mnemonic and joined operand texts is read as that mnemonic with those operands. -/
theorem parseCommandLine_operands (m : Mnemonic) {o : AsmOperand} {os : List AsmOperand}
    (h : ∀ o' ∈ o :: os, parseOperand (operandText o') = some o') :
    parseCommandLine (mnemonicName m ++ ' ' :: joinOperands ((o :: os).map operandText)) =
      .ok ⟨m, o :: os⟩ := by
  have hname := piece_mnemonicName m
  have hpieces : ∀ u ∈ (o :: os).map operandText, Piece u :=
    List.forall_mem_map.mpr fun o' _ => piece_operandText o'
  have hline : Trimmed (mnemonicName m ++ ' ' :: joinOperands ((o :: os).map operandText)) :=
    hname.trimmed.append (trimmed_joinOperands hpieces) [' ']
  have htexts : operandTexts (' ' :: joinOperands ((o :: os).map operandText)) =
      (o :: os).map operandText := operandTexts_joinOperands hpieces
  simp only [parseCommandLine, trimSpaces_of_trimmed hline, hname.takeWhile_append,
    hname.dropWhile_append, parseMnemonic_mnemonicName, htexts, parseOperands_map h]

theorem parseCommandLine_commandText (i : Instr) :
    parseCommandLine (commandText i) = .ok i.asm := by
  have hparse := parseOperand_of_mem i
  rw [commandText]
  generalize i.asm = line at hparse ⊢
  obtain ⟨m, os⟩ := line
  cases os with
  | nil => exact parseCommandLine_mnemonicName m
  | cons o os => exact parseCommandLine_operands m hparse

/-- The operands of a command fill the fields they were written from (R62). -/
theorem ofFields_asm (i : Instr) : Instr.ofFields i.asm.mnemonic (fieldsOfOperands i.asm) = i := by
  cases i <;>
    simp [Instr.asm, fieldsOfOperands, Mnemonic.format, operandNumber, Instr.ofFields]

/-- A command's line passes the checks and stands for the command (R63, R68). -/
theorem assemble_asm (i : Instr) : assemble i.asm = .ok i := by
  have hcheck : i.asm.check = none := Option.isNone_iff_eq_none.mp (instr_wellFormed i)
  rw [assemble, hcheck, ofFields_asm]

/-- Settles O30: from text to line by `parseCommandLine_commandText`, from line to command by
`assemble_asm`. -/
theorem assemblerReadsBackItsText : Obligations.AssemblerReadsBackItsText := by
  intro i
  rw [assembleLine, parseCommandLine_commandText]
  exact assemble_asm i

end Sys2Proof.Proofs.Text
end
